-- ==== Sys2Proof/Word.lean ====
section
/-! DEFINITION. The widths the spec fixes (00_scope.md R7), each under the name of what it holds. -/

namespace Sys2Proof

/-- REG_W = 256: the width of BREG and of the packed WREG (R7, R18, R19). -/
abbrev Reg256 := BitVec 256

/-- DEG2_W = 255: a reduced field element, degree below 255: a logical state, a DEG2 entry, the output of
REDUCE and MULMOD (R7, R17, R57). -/
abbrev Elem := BitVec 255

/-- The 512-bit scratch product of CLMUL and the input of REDUCE (R57). -/
abbrev Scratch := BitVec 512

/-- WORD_W = 16: one word of WREG and an index of TROM (R7, R19, R32). -/
abbrev Word16 := BitVec 16

/-- TROM_W = 48: one entry of TROM, three 16-bit words (R7, R38). -/
abbrev Entry48 := BitVec 48

/-- OUT_W = 32: one output, and the data field of a response (R7, R21, R48). -/
abbrev Out32 := BitVec 32

/-- N_WORDS = 16 words of 16 bits, index 0 the most significant (R7, R19, R37). -/
abbrev WordFile := Vector Word16 16

end Sys2Proof
end

