-- ==== Sys2Proof/Machine/Flags.lean ====
section
/-! DEFINITION. The core has no status flags and no condition codes (10_state.md R27): the only per-command
status is the status field of the response, whose codes stand here (30_encoding.md R49). -/

namespace Sys2Proof.Machine

/-- Status OK, of every command with an assigned opcode (R49). -/
def statusOk : BitVec 2 := 0b00

/-- Status ILLEGAL_OP, of a command with a reserved opcode (R49, R91). -/
def statusIllegalOp : BitVec 2 := 0b01

/-- The status codes 0b10 and 0b11, "reserved, never produced" (R49). -/
def statusReserved (status : BitVec 2) : Bool := status.getLsbD 1

end Sys2Proof.Machine
end

