-- ==== Sys2Proof/Config.lean ====
section
/-! DEFINITION. What one build of the core fixes (the parameters of 00_scope.md R7), and the free values the
spec leaves open. A parameter is held in a `Build`, so that a statement about every build holds for every legal
value; the parameters of the build that `State.reset` has are opaque constants where the spec gives no value. -/

namespace Sys2Proof

/-- One latency parameter of R7 and R110: a positive number of cycles that may differ between builds and may
depend on the argument. `base` and `byArg` give the cycles BEYOND THE FIRST, so that every value is legal:
`byArg` lists the arguments whose latency differs from the base (arguments are finitely many, so every
dependence on the argument can be listed). -/
structure Latency where
  base  : Nat
  byArg : List (Nat × Nat)
  deriving DecidableEq, Repr, Inhabited

/-- The cycles beyond the first that a command with argument `arg` takes. -/
def Latency.extra (l : Latency) (arg : Nat) : Nat := (l.byArg.lookup arg).getD l.base

/-- The latency itself: a positive number of cycles (R7, R88). -/
def Latency.cycles (l : Latency) (arg : Nat) : Nat := l.extra arg + 1

/-- LAT_SEED, LAT_SEED_DEFAULT, LAT_NEXT_BS, LAT_NEXT_WV, LAT_DISCARD, LAT_GET, LAT_ILLEGAL and LAT_INIT (R7,
R110). `initExtra` is LAT_INIT less one. -/
structure Latencies where
  seed        : Latency
  seedDefault : Latency
  nextBs      : Latency
  nextWv      : Latency
  discard     : Latency
  get         : Latency
  illegal     : Latency
  initExtra   : Nat
  deriving DecidableEq, Repr, Inhabited

/-- LAT_INIT, a positive number of cycles (R7, R104). -/
def Latencies.init (l : Latencies) : Nat := l.initExtra + 1

/-- The build-time parameters of R7. Every value of this type is a legal build: the legal ranges are in the
fields' types (`argLess1` is ARG_W - 1; `seedBits` is read through its low ARG_W bits). -/
structure Build where
  argLess1  : Fin 224
  sepOffset : BitVec 32
  seedBits  : BitVec 224
  lat       : Latencies
  deriving DecidableEq, Repr

/-- ARG_W, 1 to 224 (R7, R8). -/
def Build.argW (b : Build) : Nat := b.argLess1.val + 1

/-- DEFAULT_SEED, an integer in [0, 2^ARG_W) (R7). -/
def Build.defaultSeed (b : Build) : Nat := b.seedBits.toNat % 2 ^ b.argW

namespace Config

/-- SEP_OFFSET of the build: "an integer in [0, 2^32); value not in source" (R7, D17, N2). A free value. -/
opaque sepOffset : BitVec 32

/-- DEFAULT_SEED of the build at the default ARG_W = 64: "value not in source" (R7, D16, N3). A free value. -/
opaque defaultSeed : BitVec 64

/-- The latencies of the build: "positive integers (cycles); no value in source" (R7, D22, N12). A free value. -/
opaque latencies : Latencies

/-- The build `State.reset` has: ARG_W at the default the spec gives (R7: "default 64"), every other parameter
free. -/
def build : Build where
  argLess1  := 63
  sepOffset := sepOffset
  seedBits  := defaultSeed.setWidth 224
  lat       := latencies

/-- What BREG holds where the spec leaves it open (while `rst = 1` and during INIT: R103, U11). -/
opaque freeBreg : Nat → Reg256

/-- What the packed WREG holds where the spec leaves it open (R103, U11). -/
opaque freeWreg : Nat → Reg256

/-- What OUT holds where the spec leaves it open (R21, R30, R103, U8, U11). -/
opaque freeOut : Nat → Out32

/-- What `rsp_status` shows while `rsp_valid = 0` (R86, U10). -/
opaque freeRspStatus : Nat → BitVec 2

/-- What `rsp_data` shows while `rsp_valid = 0` (R86, U10). -/
opaque freeRspData : Nat → Out32

end Config
end Sys2Proof
end

