-- ==== Sys2Proof/Machine/Constants.lean ====
section
/-! DEFINITION. The constants of 10_state.md section 5. They are constant state: no command and no reset writes
them (R23 to R26), so they are definitions and not fields of State. -/

namespace Sys2Proof.Machine

/-- MOD512, the modulus P = x^255 + x^31 + x^7 + x^3 + 1 at the scratch width (R23). -/
def mod512 : Scratch := 0x8000000000000000000000000000000000000000000000000000000080000089

/-- x·P = x^256 ⊕ FB256, the modulus at the scale of the shifted-form registers (R24, R70). -/
def modShifted : Scratch := mod512 <<< 1

/-- FB256 = trunc_256(x·P) = x^32 + x^8 + x^4 + x, the feedback mask (R24; 90_conflicts.md C1). -/
def fb256 : Reg256 := 0x100000112

/-- MINV, the smallest output (R25). -/
def minv : Out32 := 0x00000000

/-- MAXV, the largest output (R25). -/
def maxv : Out32 := 0xFFFFFFFF

end Sys2Proof.Machine
end

