-- ==== Sys2Proof/Machine/FieldArith.lean ====
section
/-! DEFINITION. The field arithmetic units CLMUL, REDUCE and MULMOD and the shift convention (40_field_arith.md). -/

namespace Sys2Proof.Machine

/-- The loop of CLMUL after the bits 0 .. n-1 of `b` (R58). -/
def clmulLoop (a b : Reg256) : Nat → Scratch
  | 0 => 0
  | i + 1 => bif b.getLsbD i then clmulLoop a b i ^^^ (a.setWidth 512 <<< i) else clmulLoop a b i

/-- CLMUL, the carry-less product of two 256-bit vectors (R58). -/
def clmul (a b : Reg256) : Scratch := clmulLoop a b 256

/-- Long division, top bit first, by a modulus `m` of degree `d`: the steps for the bits d+n-1 down to d. Step k
XORs m << (k - d) where bit k is set (R59). -/
def remLoop (m : Scratch) (d : Nat) : Nat → Scratch → Scratch
  | 0, r => r
  | n + 1, r => remLoop m d n (bif r.getLsbD (d + n) then r ^^^ (m <<< n) else r)

/-- REDUCE, the remainder modulo P: the steps for k = 511 downto 255 (R59). -/
def reduce (c : Scratch) : Elem := (remLoop mod512 255 257 c).setWidth 255

/-- MULMOD, the product modulo P, total on 256-bit operands (R60, D25). -/
def mulmod (a b : Reg256) : Elem := reduce (clmul a b)

/-- MULMOD as JUMP and DEG2 use it: on field elements, zero-extended (R60, R64, R66). -/
def mulElem (a b : Elem) : Elem := mulmod (a.setWidth 256) (b.setWidth 256)

/-- XS, multiplication by x of a logical state in canonical form (R61). -/
def xs (s : Elem) : Elem :=
  let t : Reg256 := s.setWidth 256 <<< 1
  (bif t.getLsbD 255 then t ^^^ mod512.setWidth 256 else t).setWidth 255

/-- XSS, multiplication by x of a register in shifted form: one bit-serial step (R61). -/
def xss (S : Reg256) : Reg256 :=
  bif S.getLsbD 255 then (S <<< 1) ^^^ fb256 else S <<< 1

/-- The shifted form x·s of a logical state (R17). -/
def shifted (s : Elem) : Reg256 := s.setWidth 256 <<< 1

/-- The logical state of a register, S[255:1] (R17). -/
def logical (S : Reg256) : Elem := S.extractLsb' 1 255

end Sys2Proof.Machine
end

