-- ==== Sys2Proof/Machine/JumpAhead.lean ====
section
/-! DEFINITION. The power table DEG2 and the JUMP operation (41_jump_ahead.md). -/

namespace Sys2Proof.Machine

/-- The contents of DEG2: entry 0 is x, each further entry the square of the one before (R64). -/
def deg2Entry : Nat → Elem
  | 0 => 0x2
  | i + 1 => mulElem (deg2Entry i) (deg2Entry i)

/-- A read of the ROM DEG2, whose index has 8 bits (R32, R33). -/
def deg2 (i : BitVec 8) : Elem := deg2Entry i.toNat

/-- One turn of JUMP's loop: the multiplication that bit i of the exponent selects (R66). -/
def jumpTurn (e base : Nat) (acc : Elem) (i : Nat) : Elem :=
  bif e.testBit i then mulElem acc (deg2 (BitVec.ofNat 8 (i + base))) else acc

/-- JUMP(s, e, n, base): square-and-multiply from the table, least significant bit first (R66). -/
def jump (s : Elem) (e n base : Nat) : Elem := (List.range n).foldl (jumpTurn e base) s

/-- The DEG2 indices that JUMP reads, in the order it reads them (R67, R69). -/
def jumpReads (e n base : Nat) : List Nat := ((List.range n).filter e.testBit).map (· + base)

/-- The logical state that seeding with `v` gives: the offset jump, then the seed jump (R76, R104). -/
def seedState (b : Build) (v : Nat) : Elem := jump (jump 1 b.sepOffset.toNat 32 0) v b.argW 32

end Sys2Proof.Machine
end

