-- ==== Sys2Proof/Machine/WordTable.lean ====
section
/-! DEFINITION. The word-reduction table ROM TROM (42_word_table.md) and the word register as a packed value. -/

namespace Sys2Proof.Machine

/-- TROM[v] = (v·x^256) mod (x·P), by long division: v·x^256 has degree at most 271, so the steps are those of
the bits 271 downto 256 (R70). -/
def trom (v : Word16) : Entry48 :=
  (remLoop modShifted 256 16 (v.setWidth 512 <<< 256)).setWidth 48

/-- Word 0, 1 and 2 of a TROM entry, word 0 the least significant (R38). -/
def entryWord (t : Entry48) (k : Nat) : Word16 := t.extractLsb' (16 * k) 16

/-- Turns of BUILD_TROM's outer loop: `n` of them, the next one for the index bit `b`, with the shifting
accumulator `acc` and the table `T` so far. Each XORs the accumulator into every entry j of 2^b .. 65535 with
(j AND 2^b) ≠ 0 and shifts the accumulator (R72). -/
def buildTromTurns : Nat → Nat → Entry48 → (Word16 → Entry48) → Word16 → Entry48
  | 0, _, _, T => T
  | n + 1, b, acc, T =>
    buildTromTurns n (b + 1) (acc <<< 1) fun j =>
      bif decide (2 ^ b ≤ j.toNat) && (j &&& BitVec.ofNat 16 (2 ^ b)) != 0 then T j ^^^ acc else T j

/-- BUILD_TROM, the document's construction made exact: all entries 0, acc starts as FB256[47:0], sixteen turns
(R72; 90_conflicts.md C14). -/
def buildTrom : Word16 → Entry48 := buildTromTurns 16 0 (fb256.setWidth 48) fun _ => 0

/-- The packed value of the word register: WREG[0] ++ WREG[1] ++ ... ++ WREG[15] (R19). -/
def pack (w : WordFile) : Reg256 :=
  w[0] ++ w[1] ++ w[2] ++ w[3] ++ w[4] ++ w[5] ++ w[6] ++ w[7] ++
  w[8] ++ w[9] ++ w[10] ++ w[11] ++ w[12] ++ w[13] ++ w[14] ++ w[15]

/-- The sixteen words of a 256-bit value: word k is bits 255-16k down to 240-16k (R19, R37, R76). -/
def unpack (r : Reg256) : WordFile := Vector.ofFn fun k => r.extractLsb' (240 - 16 * k.val) 16

/-- The slide of NEXT_WV: two word positions toward index 0, zeros entering (R79; 90_conflicts.md C5). -/
def slide (w : WordFile) : WordFile :=
  #v[w[2], w[3], w[4], w[5], w[6], w[7], w[8], w[9], w[10], w[11], w[12], w[13], w[14], w[15], 0, 0]

/-- The corrections NEXT_WV XORs into the words 12 to 15: `t1` is the entry of the second discarded word, `t0`
that of the first (R74, R79; 90_conflicts.md C3, C4). -/
def correct (w : WordFile) (t1 t0 : Entry48) : WordFile :=
  #v[w[0], w[1], w[2], w[3], w[4], w[5], w[6], w[7], w[8], w[9], w[10], w[11],
     w[12] ^^^ entryWord t0 2,
     w[13] ^^^ entryWord t1 2 ^^^ entryWord t0 1,
     w[14] ^^^ entryWord t1 1 ^^^ entryWord t0 0,
     w[15] ^^^ entryWord t1 0]

/-- The word register after NEXT_WV (R79). -/
def advanceWords (w : WordFile) : WordFile := correct (slide w) (trom w[1]) (trom w[0])

/-- The output NEXT_WV takes: hi ++ lo (R36, R79). -/
def topWords (w : WordFile) : Out32 := w[0] ++ w[1]

end Sys2Proof.Machine
end

