-- ==== Sys2Proof/Syntax.lean ====
section
/-! DEFINITION. The command set: one constructor per row of spec/opcode_table.json (30_encoding.md R47, R50). -/

namespace Sys2Proof

/-- A decoded command. Every command has the one format CW = arg ++ op (R47), so every constructor carries the
argument field, also where the core ignores it (R53) or does not read it (R52): decoding drops no bit. `arg` is
the unsigned integer of R51, below 2^ARG_W in a well-formed command. -/
inductive Instr where
  /-- op 0x1, `SEED v` (R76). -/
  | seed (v : Nat)
  /-- op 0x2, `SEED_DEFAULT`, argument ignored (R77). -/
  | seedDefault (arg : Nat)
  /-- op 0x3, `NEXT_BS`, argument ignored (R78). -/
  | nextBs (arg : Nat)
  /-- op 0x4, `NEXT_WV`, argument ignored (R79). -/
  | nextWv (arg : Nat)
  /-- op 0x5, `DISCARD z` (R80). -/
  | discard (z : Nat)
  /-- op 0x6, `GET_MIN`, argument ignored (R81). -/
  | getMin (arg : Nat)
  /-- op 0x7, `GET_MAX`, argument ignored (R82). -/
  | getMax (arg : Nat)
  /-- op 0x0, reserved, argument not read (R52, R91). -/
  | reservedZero (arg : Nat)
  /-- op 0x8 to 0xF, reserved: `low` is op[2:0] (R52, R91). -/
  | reservedHigh (low : BitVec 3) (arg : Nat)
  deriving DecidableEq, Repr

/-- One transfer of the command port: `cmd_op` and `cmd_arg` (R47, R85). It is also what the sequencer latches
(R22, R87). -/
structure Command where
  op  : BitVec 4
  arg : Nat
  deriving DecidableEq, Repr

end Sys2Proof
end

