-- ==== Sys2Proof/Machine/State.lean ====
section
/-! DEFINITION. The state of the core (10_state.md), what the host drives on its input ports, and reset. -/

namespace Sys2Proof.Machine

/-- A response word in its two fields (R48). -/
structure Response where
  status : BitVec 2
  data   : Out32
  deriving DecidableEq, Repr

/-- The levels of the input ports at one rising edge of `clk` (R85). `cmdArg` is a number whose low ARG_W bits
are on the wires. -/
structure Pins where
  rst      : Bool
  cmdValid : Bool
  cmdOp    : BitVec 4
  cmdArg   : Nat
  rspReady : Bool
  deriving DecidableEq, Repr

/-- The host drives nothing: no reset, no offer, not ready. -/
def Pins.quiet : Pins := ⟨false, false, 0, 0, false⟩

/-- The sequencer state ST with what each of its states holds (R22): the latched command exists while ST = BUSY,
the pending response while ST = RESP. `left` counts the edges before the one that ends INIT or the execution. -/
inductive Sequencer where
  /-- During and after reset, until the reset seeding is done (R103, R104). -/
  | init (left : Nat)
  /-- Waiting for a command (R87). -/
  | idle
  /-- Executing the latched command (R88). -/
  | busy (latched : Command) (left : Nat)
  /-- Holding the response until the host takes it (R89). -/
  | resp (pending : Response)
  deriving DecidableEq, Repr

/-- The state of one core. BREG, WREG and OUT are the spec's architectural registers (R18, R19, R21), `seq` its
sequencer state (R22). `build` holds the build-time parameters (R7): they are no state of the spec, and no step
changes them. `inputs` lists what the host drives at the coming edges, the next edge first; past its end the
host drives nothing. `draws` is the model's own counter: it numbers the edges, and every free value is applied
to it. -/
structure State where
  build  : Build
  breg   : Reg256
  wreg   : WordFile
  out    : Out32
  seq    : Sequencer
  inputs : List Pins
  draws  : Nat
  deriving DecidableEq, Repr

/-- Why the machine stops with a fault: never. The spec defines no fault: "The core has no traps" (R95), no ROM
index is out of range (R33), no access is misaligned (R40), every command gives a response (R90, R92). So this
type has no constructor, and that the step never faults is visible in it (safe: nothing is claimed of a stop). -/
inductive Fault where
  deriving DecidableEq, Repr

/-- Why an instruction is refused. -/
inductive Refusal where
  /-- Raised by an arm of `exec` for an instruction that has no meaning in this model. No arm raises it: every
  command has its meaning, a reserved opcode too (R91). Safe. -/
  | notModelled (mnemonic : String)
  deriving DecidableEq, Repr

/-- What one rising edge does: move to a state, or, at the edge that ends an execution, run a command in a
state. -/
inductive Edge where
  | move (t : State)
  | run (i : Instr) (t : State)
  deriving DecidableEq, Repr

/-- The reset state of R30 for a given build: the state when the core leaves INIT for IDLE. BREG and WREG are
those of SEED_DEFAULT; OUT is unspecified, so it holds a free value; nothing is latched, nothing is pending. -/
def State.resetOf (b : Build) : State where
  build  := b
  breg   := shifted (seedState b b.defaultSeed)
  wreg   := unpack (shifted (seedState b b.defaultSeed))
  out    := Config.freeOut 0
  seq    := .idle
  inputs := []
  draws  := 1

/-- The machine right after reset (R30, R104). -/
def State.reset : State := State.resetOf Config.build

end Sys2Proof.Machine
end

