-- ==== Sys2Proof/Machine/Ops.lean ====
section
/-! DEFINITION. The named operations over the registers and the sequencer that the meanings share. The core takes
no exception: its only error is the response ILLEGAL_OP, given here as one shared operation (60_exceptions.md
R91, R95). -/

namespace Sys2Proof.Machine

/-- BREG <- v. -/
def State.setBreg (s : State) (v : Reg256) : State := { s with breg := v }

/-- WREG[k] <- w[k] for k in 0 .. 15. -/
def State.setWreg (s : State) (w : WordFile) : State := { s with wreg := w }

/-- OUT <- v. -/
def State.setOut (s : State) (v : Out32) : State := { s with out := v }

/-- ST <- q. -/
def State.setSeq (s : State) (q : Sequencer) : State := { s with seq := q }

/-- respond(status, data): the pending response is set and ST <- RESP (R48). -/
def State.respond (s : State) (status : BitVec 2) (data : Out32) : State := s.setSeq (.resp ⟨status, data⟩)

/-- Both generator registers take the shifted form of a logical state, WREG rebuilt from BREG, most significant
word first (R76, R104). -/
def State.loadBoth (s : State) (r : Elem) : State := (s.setBreg (shifted r)).setWreg (unpack (shifted r))

/-- The register effect of seeding with v (R76, R77, R104). OUT is not written. -/
def State.seedRegisters (s : State) (v : Nat) : State := s.loadBoth (seedState s.build v)

/-- ILLEGAL(): respond(ILLEGAL_OP, 0). The argument is not read; BREG, WREG and OUT are unchanged; nothing is
recorded (R91). -/
def State.illegal (s : State) : State := s.respond statusIllegalOp 0

/-- BREG, WREG and OUT take values the spec leaves open (R103: "not reliable"; U11). -/
def State.scramble (s : State) : State :=
  ((s.setBreg (Config.freeBreg s.draws)).setWreg (unpack (Config.freeWreg s.draws))).setOut (Config.freeOut s.draws)

/-- What the host drives at the coming edge. -/
def State.pins (s : State) : Pins := s.inputs.headD Pins.quiet

/-- The coming edge has been sampled. -/
def State.tick (s : State) : State := { s with inputs := s.inputs.tail, draws := s.draws + 1 }

end Sys2Proof.Machine
end

