-- ==== Sys2Proof/Machine/Bounds.lean ====
section
/-! DEFINITION. GET_MIN and GET_MAX (43_generator.md section 4). -/

namespace Sys2Proof.Machine

/-- GET_MIN: respond(OK, MINV) (R81). -/
def execGetMin (s : State) : Host.Outcome State Fault Refusal := .next (s.respond statusOk minv)

/-- GET_MAX: respond(OK, MAXV) (R82). -/
def execGetMax (s : State) : Host.Outcome State Fault Refusal := .next (s.respond statusOk maxv)

end Sys2Proof.Machine
end

