-- ==== Sys2Proof/Machine/Discarding.lean ====
section
/-! DEFINITION. DISCARD (43_generator.md section 3). -/

namespace Sys2Proof.Machine

/-- BREG after DISCARD z: its logical state times x^(32·z), with DEG2 indices from 5 (R80). -/
def discarded (b : Build) (S : Reg256) (z : Nat) : Reg256 := shifted (jump (logical S) z b.argW 5)

/-- DISCARD z (R80). BREG only: WREG and OUT are not written (D14). -/
def execDiscard (z : Nat) (s : State) : Host.Outcome State Fault Refusal :=
  .next ((s.setBreg (discarded s.build s.breg z)).respond statusOk 0)

end Sys2Proof.Machine
end

