-- ==== Sys2Proof/Machine/Generation.lean ====
section
/-! DEFINITION. NEXT_BS and NEXT_WV (43_generator.md section 2). -/

namespace Sys2Proof.Machine

/-- n turns of NEXT_BS's loop: the bit leaving the top enters the output from below, the register takes one
bit-serial step (R78). -/
def nextBsLoop : Nat → Reg256 → Out32 → Reg256 × Out32
  | 0, S, out => (S, out)
  | n + 1, S, out => nextBsLoop n (xss S) ((out <<< 1) ||| (BitVec.ofBool (S.getLsbD 255)).setWidth 32)

/-- BREG and the output after the 32 turns of NEXT_BS (R78). -/
def nextBs (S : Reg256) : Reg256 × Out32 := nextBsLoop 32 S 0

/-- NEXT_BS (R78). WREG is not written. -/
def execNextBs (s : State) : Host.Outcome State Fault Refusal :=
  .next (((s.setBreg (nextBs s.breg).1).setOut (nextBs s.breg).2).respond statusOk (nextBs s.breg).2)

/-- NEXT_WV (R79). BREG is not written. -/
def execNextWv (s : State) : Host.Outcome State Fault Refusal :=
  .next (((s.setWreg (advanceWords s.wreg)).setOut (topWords s.wreg)).respond statusOk (topWords s.wreg))

end Sys2Proof.Machine
end

