-- ==== Sys2Proof/Machine/Reserved.lean ====
section
/-! DEFINITION. The reserved opcodes, answered with ILLEGAL_OP (60_exceptions.md R91; 30_encoding.md R52). -/

namespace Sys2Proof.Machine

/-- op 0x0 (R52, R91). -/
def execReservedZero (s : State) : Host.Outcome State Fault Refusal := .next s.illegal

/-- op 0x8 to 0xF (R52, R91). -/
def execReservedHigh (s : State) : Host.Outcome State Fault Refusal := .next s.illegal

end Sys2Proof.Machine
end

