-- ==== Sys2Proof/Machine/Seeding.lean ====
section
/-! DEFINITION. SEED and SEED_DEFAULT (43_generator.md section 1). -/

namespace Sys2Proof.Machine

/-- SEED v (R76): both registers take the shifted form of x^(SEP_OFFSET + v·2^32) mod P. -/
def execSeed (v : Nat) (s : State) : Host.Outcome State Fault Refusal :=
  .next ((s.seedRegisters v).respond statusOk 0)

/-- SEED_DEFAULT (R77): as SEED DEFAULT_SEED, its response included. -/
def execSeedDefault (s : State) : Host.Outcome State Fault Refusal :=
  .next ((s.seedRegisters s.build.defaultSeed).respond statusOk 0)

end Sys2Proof.Machine
end

