-- ==== Sys2Proof/Machine/Dispatch.lean ====
section
/-! DEFINITION. One arm per command: the effect of its execution (43_generator.md R75). -/

namespace Sys2Proof.Machine

/-- The effect of a command at the edge that ends its execution: every architectural write together, the pending
response, ST <- RESP (R75, R88). -/
def exec (i : Instr) (s : State) : Host.Outcome State Fault Refusal :=
  match i with
  | .seed v => Sys2Proof.Machine.execSeed v s
  | .seedDefault _ => Sys2Proof.Machine.execSeedDefault s
  | .nextBs _ => Sys2Proof.Machine.execNextBs s
  | .nextWv _ => Sys2Proof.Machine.execNextWv s
  | .discard z => Sys2Proof.Machine.execDiscard z s
  | .getMin _ => Sys2Proof.Machine.execGetMin s
  | .getMax _ => Sys2Proof.Machine.execGetMax s
  | .reservedZero _ => Sys2Proof.Machine.execReservedZero s
  | .reservedHigh _ _ => Sys2Proof.Machine.execReservedHigh s

end Sys2Proof.Machine
end

