-- ==== Sys2Proof/WellFormed.lean ====
section
/-! DEFINITION. Which commands can be written at all: the argument field has ARG_W bits (30_encoding.md R47, R51). -/

namespace Sys2Proof

/-- The argument field of a command, whatever the command (R47). -/
def Instr.arg : Instr → Nat
  | .seed v => v
  | .seedDefault a => a
  | .nextBs a => a
  | .nextWv a => a
  | .discard z => z
  | .getMin a => a
  | .getMax a => a
  | .reservedZero a => a
  | .reservedHigh _ a => a

/-- The one check: "An integer of 2^ARG_W or more cannot be written as an argument" (R51). -/
def Instr.wellFormed (argW : Nat) (i : Instr) : Bool := decide (i.arg < 2 ^ argW)

/-- The same of a command word held as fields: `cmd_arg` has ARG_W wires (R85). -/
def Command.wellFormed (argW : Nat) (c : Command) : Bool := decide (c.arg < 2 ^ argW)

end Sys2Proof
end

