-- ==== Sys2Proof/Decode.lean ====
section
/-! DEFINITION. The decoder and the encoder of command words (30_encoding.md R47, R50, R54). A command word is a
number: bit 0 is CW[0]. It is never held in bytes: the core has no byte order (20_memory.md R39). -/

namespace Sys2Proof

/-- Why a number is no command word. -/
inductive DecodeError where
  /-- The number has more than ARG_W + 4 bits, so no transfer of the command port carries it (R47, R54). -/
  | tooWide (cw : Nat)
  deriving DecidableEq, Repr

/-- The decoder proper. It is total: "each of the 16 values of op is either one of the seven commands or
reserved" (R54), and op alone decides (R50). -/
def decodeCommand (c : Command) : Instr :=
  match c.op.toNat with
  | 0x0 => .reservedZero c.arg
  | 0x1 => .seed c.arg
  | 0x2 => .seedDefault c.arg
  | 0x3 => .nextBs c.arg
  | 0x4 => .nextWv c.arg
  | 0x5 => .discard c.arg
  | 0x6 => .getMin c.arg
  | 0x7 => .getMax c.arg
  | _   => .reservedHigh (c.op.setWidth 3) c.arg

/-- The fields of a command word: op = CW[3:0], arg = CW[ARG_W+3:4] (R47). -/
def Command.ofWord (cw : Nat) : Command := ⟨BitVec.ofNat 4 cw, cw / 2 ^ 4⟩

/-- The command word of the fields: CW = cmd_arg ++ cmd_op (R47). -/
def Command.word (c : Command) : Nat := c.arg * 2 ^ 4 + c.op.toNat

/-- Decoding at a given ARG_W, total on every number: a number of more than ARG_W + 4 bits is rejected by name. -/
def decode (argW : Nat) (cw : Nat) : Except DecodeError Instr :=
  if cw < 2 ^ (argW + 4) then .ok (decodeCommand (Command.ofWord cw)) else .error (.tooWide cw)

/-- The opcode of a command (R50, R52). -/
def Instr.op : Instr → BitVec 4
  | .reservedZero _ => 0x0
  | .seed _ => 0x1
  | .seedDefault _ => 0x2
  | .nextBs _ => 0x3
  | .nextWv _ => 0x4
  | .discard _ => 0x5
  | .getMin _ => 0x6
  | .getMax _ => 0x7
  | .reservedHigh low _ => (1#1) ++ low

/-- The fields the command port carries for a command. -/
def encodeCommand (i : Instr) : Command := ⟨i.op, i.arg⟩

/-- The command word of a command (R47, R50). -/
def encode (i : Instr) : Nat := (encodeCommand i).word

/-- The match and mask of a command's row in the opcode table (R50: "As match/mask pairs over CW[3:0], with mask
0xF for every row"; the table's last row stands for the eight opcodes 0x8 to 0xF and has mask 0x8). -/
def Instr.row : Instr → BitVec 4 × BitVec 4
  | .reservedZero _ => (0x0, 0xF)
  | .seed _ => (0x1, 0xF)
  | .seedDefault _ => (0x2, 0xF)
  | .nextBs _ => (0x3, 0xF)
  | .nextWv _ => (0x4, 0xF)
  | .discard _ => (0x5, 0xF)
  | .getMin _ => (0x6, 0xF)
  | .getMax _ => (0x7, 0xF)
  | .reservedHigh _ _ => (0x8, 0x8)

/-- What the decoder reads from the bits of an opcode-table row, at the default ARG_W = 64 (R7). The bits above
`nbits` are 0. -/
def decodeTableWord (nbits w : Nat) : Option Instr :=
  match decode Config.build.argW (w % 2 ^ nbits) with
  | .ok i => some i
  | .error _ => none

end Sys2Proof
end

