-- ==== Sys2Proof/Machine/Operands.lean ====
section
/-! DEFINITION. The only operand, `arg` (30_encoding.md R51), and how the command port gives it. -/

namespace Sys2Proof.Machine

/-- The integer an argument vector stands for: the sum over i of arg[i]·2^i (R35, R51). -/
def argValue {w : Nat} (arg : BitVec w) : Nat := arg.toNat

/-- What the ARG_W wires of `cmd_arg` carry of a number: its low ARG_W bits (R47, R85). No sign extension, no
scaling and no shift is applied (R51). -/
def portArg (b : Build) (level : Nat) : Nat := level % 2 ^ b.argW

/-- The command a transfer of the command port carries (R47, R87). -/
def portCommand (b : Build) (op : BitVec 4) (level : Nat) : Command := ⟨op, portArg b level⟩

end Sys2Proof.Machine
end

