-- ==== Sys2Proof/Machine/Handshake.lean ====
section
/-! DEFINITION. The ports and what one rising edge of `clk` does in each sequencer state (60_exceptions.md
section 1, 70_reset_and_hazards.md section 1). -/

namespace Sys2Proof.Machine

/-- cmd_ready = (ST = IDLE) (R86). -/
def State.cmdReady (s : State) : Bool :=
  match s.seq with
  | .idle => true
  | .init _ | .busy _ _ | .resp _ => false

/-- rsp_valid = (ST = RESP) (R86). -/
def State.rspValid (s : State) : Bool :=
  match s.seq with
  | .resp _ => true
  | .init _ | .idle | .busy _ _ => false

/-- rsp_status: the pending response's status while ST = RESP, a free value otherwise (R86, U10). -/
def State.rspStatus (s : State) : BitVec 2 :=
  match s.seq with
  | .resp r => r.status
  | .init _ | .idle | .busy _ _ => Config.freeRspStatus s.draws

/-- rsp_data: the pending response's data while ST = RESP, a free value otherwise (R86, U10). -/
def State.rspData (s : State) : Out32 :=
  match s.seq with
  | .resp r => r.data
  | .init _ | .idle | .busy _ _ => Config.freeRspData s.draws

/-- The response word RW = data ++ status (R48). -/
def Response.word (r : Response) : BitVec 34 := r.data ++ r.status

/-- The edges a command's execution takes beyond the first (R88, R110). A reserved command's argument is not
read (R52), so its latency cannot depend on it. -/
def commandExtra (b : Build) (c : Command) : Nat :=
  match decodeCommand c with
  | .seed v => b.lat.seed.extra v
  | .seedDefault a => b.lat.seedDefault.extra a
  | .nextBs a => b.lat.nextBs.extra a
  | .nextWv a => b.lat.nextWv.extra a
  | .discard z => b.lat.discard.extra z
  | .getMin a => b.lat.get.extra a
  | .getMax a => b.lat.get.extra a
  | .reservedZero _ => b.lat.illegal.extra 0
  | .reservedHigh _ _ => b.lat.illegal.extra 0

/-- An edge with rst = 1: ST <- INIT, the latched command and the pending response are discarded, the registers
are not reliable (R103). -/
def resetEdge (s : State) : State := s.scramble.setSeq (.init s.build.lat.init)

/-- The effect of RESET_SEED, without a response: the edge that ends INIT (R104). OUT is not written. -/
def resetSeed (s : State) : State := (s.seedRegisters s.build.defaultSeed).setSeq .idle

/-- An edge with rst = 0 while ST = INIT (R104). The registers are not reliable while INIT lasts (R103). -/
def initEdge (left : Nat) (s : State) : State :=
  match left with
  | 0 => resetSeed s
  | n + 1 => s.scramble.setSeq (.init n)

/-- An edge with rst = 0 while ST = IDLE: an offered command is accepted, its opcode and argument latched, and
ST <- BUSY (R87). -/
def idleEdge (p : Pins) (s : State) : State :=
  match p.cmdValid with
  | true =>
    s.setSeq (.busy (portCommand s.build p.cmdOp p.cmdArg) (commandExtra s.build (portCommand s.build p.cmdOp p.cmdArg)))
  | false => s

/-- An edge with rst = 0 while ST = BUSY: the last one ends the execution (R88). -/
def busyEdge (c : Command) (left : Nat) (s : State) : Edge :=
  match left with
  | 0 => .run (decodeCommand c) s
  | n + 1 => .move (s.setSeq (.busy c n))

/-- An edge with rst = 0 while ST = RESP: the response is taken when rsp_ready = 1, held otherwise (R89). -/
def respEdge (p : Pins) (s : State) : State :=
  match p.rspReady with
  | true => s.setSeq .idle
  | false => s

/-- One rising edge. Reset takes priority over every other event (R93). -/
def State.edge (s : State) : Edge :=
  match s.pins.rst with
  | true => .move (resetEdge s.tick)
  | false =>
    match s.seq with
    | .init left => .move (initEdge left s.tick)
    | .idle => .move (idleEdge s.pins s.tick)
    | .busy c left => busyEdge c left s.tick
    | .resp _ => .move (respEdge s.pins s.tick)

/-- The state whose next edge ends the execution of the command with the given word: the command is latched, its
last cycle has come, and the host drives no reset at that edge. -/
def State.latchWord (s : State) (cw : Nat) : State :=
  { s with
    seq := .busy (portCommand s.build (Command.ofWord cw).op (Command.ofWord cw).arg) 0
    inputs := Pins.quiet :: s.inputs }

end Sys2Proof.Machine
end

