-- ==== Sys2Proof/Machine/Step.lean ====
section
/-! DEFINITION. One step of the machine: one rising edge of `clk` (60_exceptions.md R85). -/

namespace Sys2Proof.Machine

/-- One rising edge. At the edge that ends an execution the latched command runs. -/
def step (s : State) : Host.Outcome State Fault Refusal :=
  match s.edge with
  | .move t => .next t
  | .run i t => exec i t

/-- The state whose next step runs the command whose bits are `w` (the bits above `nbits` are 0): the core fetches
no instruction, it takes commands from its port (R16, R45), so the command is placed where the sequencer latches
it. -/
def State.withFetchWord (s : State) (nbits w : Nat) : State := s.latchWord (w % 2 ^ nbits)

end Sys2Proof.Machine
end

