-- ==== Sys2Proof/Machine/Assembler.lean ====
section
/-! DEFINITION. The textual form of command sequences (30_encoding.md section 5: R55, R56). A line is a list of
characters. -/

namespace Sys2Proof.Machine

/-- Why a line does not assemble. -/
inductive AsmError where
  /-- The first word names no command, alias or directive (R55, R56). -/
  | unknownMnemonic
  /-- "SEED and DISCARD take exactly one operand. The others take none"; `.cmd` takes op, a comma and arg (R55). -/
  | wrongOperands
  /-- An operand is no unsigned integer in decimal or hexadecimal (R55). -/
  | badNumber
  /-- An operand of 2^ARG_W or more (R51, R55). -/
  | operandTooWide
  /-- An opcode of `.cmd` of 16 or more: op has 4 bits (R47). -/
  | opTooWide
  deriving DecidableEq, Repr

/-- The text before a comment: ";" starts one, to the end of the line (R55). -/
def stripComment (line : List Char) : List Char := line.takeWhile (fun c => c != ';')

/-- A word just read, if it has a character. -/
def flushWord (word : List Char) : List (List Char) :=
  match word with
  | [] => []
  | c :: cs => [(c :: cs).reverse]

/-- The words of a line: separated by blanks and tabs, a comma a word of its own. `word` holds the characters of
the word being read, last first. -/
def lineWords : List Char → List Char → List (List Char)
  | word, [] => flushWord word
  | word, c :: cs =>
    bif c == ' ' || c == '\t' then flushWord word ++ lineWords [] cs
    else bif c == ',' then flushWord word ++ [','] :: lineWords [] cs
    else lineWords (c :: word) cs

/-- A decimal digit's value. -/
def decDigit (c : Char) : Option Nat :=
  bif '0'.toNat ≤ c.toNat && c.toNat ≤ '9'.toNat then some (c.toNat - '0'.toNat) else none

/-- A hexadecimal digit's value, in either case. -/
def hexDigit (c : Char) : Option Nat :=
  match decDigit c with
  | some d => some d
  | none =>
    bif 'a'.toNat ≤ c.toNat && c.toNat ≤ 'f'.toNat then some (c.toNat - 'a'.toNat + 10)
    else bif 'A'.toNat ≤ c.toNat && c.toNat ≤ 'F'.toNat then some (c.toNat - 'A'.toNat + 10)
    else none

/-- The value of a row of digits in a base, most significant first. -/
def digitsValue (base : Nat) (digit : Char → Option Nat) : Nat → List Char → Option Nat
  | acc, [] => some acc
  | acc, c :: cs =>
    match digit c with
    | some d => digitsValue base digit (acc * base + d) cs
    | none => none

/-- An unsigned integer in decimal (`5`) or hexadecimal (`0x5`) (R55). -/
def parseNumber (word : List Char) : Option Nat :=
  match word with
  | [] => none
  | '0' :: 'x' :: [] => none
  | '0' :: 'x' :: ds => digitsValue 16 hexDigit 0 ds
  | ds => digitsValue 10 decDigit 0 ds

/-- An operand, less than 2^ARG_W (R55). -/
def parseOperand (argW : Nat) (word : List Char) : Except AsmError Nat :=
  match parseNumber word with
  | none => .error .badNumber
  | some v => if v < 2 ^ argW then .ok v else .error .operandTooWide

/-- The opcode a mnemonic or an alias assembles to (R50, R55, R56). -/
def mnemonicOp (word : List Char) : Option (BitVec 4) :=
  bif word == ['S', 'E', 'E', 'D'] then some 0x1
  else bif word == ['S', 'E', 'E', 'D', '_', 'D', 'E', 'F', 'A', 'U', 'L', 'T'] then some 0x2
  else bif word == ['N', 'E', 'X', 'T', '_', 'B', 'S'] then some 0x3
  else bif word == ['N', 'E', 'X', 'T', '_', 'W', 'V'] then some 0x4
  else bif word == ['D', 'I', 'S', 'C', 'A', 'R', 'D'] then some 0x5
  else bif word == ['G', 'E', 'T', '_', 'M', 'I', 'N'] then some 0x6
  else bif word == ['G', 'E', 'T', '_', 'M', 'A', 'X'] then some 0x7
  else bif word == ['r', 'e', 's', 'e', 'e', 'd'] then some 0x1
  else bif word == ['s', 'e', 'e', 'd'] then some 0x1
  else bif word == ['g', 'e', 'n', 'e', 'r', 'a', 't', 'e'] then some 0x3
  else bif word == ['g', 'e', 'n', 'e', 'r', 'a', 't', 'e', '_', 'f', 'a', 's', 't'] then some 0x4
  else bif word == ['d', 'i', 's', 'c', 'a', 'r', 'd'] then some 0x5
  else bif word == ['m', 'i', 'n'] then some 0x6
  else bif word == ['m', 'a', 'x'] then some 0x7
  else none

/-- Whether a command takes an operand: SEED and DISCARD (R55). -/
def takesOperand (op : BitVec 4) : Bool := op == 0x1 || op == 0x5

/-- The directive `.cmd op, arg`: an arbitrary command word, reserved opcodes included (R55). -/
def assembleCmd (argW : Nat) (opWord argWord : List Char) : Except AsmError Command :=
  match parseNumber opWord with
  | none => .error .badNumber
  | some op =>
    if op < 16 then
      match parseOperand argW argWord with
      | .ok v => .ok ⟨BitVec.ofNat 4 op, v⟩
      | .error e => .error e
    else .error .opTooWide

/-- A mnemonic or an alias with its operands: "A command with no operand assembles with arg = 0" (R55). -/
def assembleNamed (argW : Nat) (name : List Char) (operands : List (List Char)) : Except AsmError Command :=
  match mnemonicOp name with
  | none => .error .unknownMnemonic
  | some op =>
    match takesOperand op, operands with
    | true, [w] =>
      match parseOperand argW w with
      | .ok v => .ok ⟨op, v⟩
      | .error e => .error e
    | false, [] => .ok ⟨op, 0⟩
    | true, _ => .error .wrongOperands
    | false, _ => .error .wrongOperands

/-- The words of one line, none for a blank line (R55). -/
def assembleWords (argW : Nat) (words : List (List Char)) : Except AsmError (Option Command) :=
  match words with
  | [] => .ok none
  | w :: ws =>
    bif w == ['.', 'c', 'm', 'd'] then
      match ws with
      | [opWord, [','], argWord] => (assembleCmd argW opWord argWord).map some
      | _ => .error .wrongOperands
    else (assembleNamed argW w ws).map some

/-- One line of a program (R55). -/
def assembleLine (argW : Nat) (line : List Char) : Except AsmError (Option Command) :=
  assembleWords argW (lineWords [] (stripComment line))

/-- A program: one command a line, blank and comment lines giving none (R55). -/
def assemble (argW : Nat) : List (List Char) → Except AsmError (List Command)
  | [] => .ok []
  | line :: lines =>
    match assembleLine argW line, assemble argW lines with
    | .ok c, .ok cs => .ok (c.toList ++ cs)
    | .error e, _ => .error e
    | .ok _, .error e => .error e

/-- A hexadecimal digit as a listing prints it. -/
def hexChar (d : Nat) : Char :=
  if d < 10 then Char.ofNat ('0'.toNat + d) else Char.ofNat ('a'.toNat + d - 10)

/-- The n low hexadecimal digits of a number, most significant first. -/
def hexDigits : Nat → Nat → List Char
  | 0, _ => []
  | n + 1, v => hexDigits n (v / 16) ++ [hexChar (v % 16)]

/-- What a listing shows of a command: its word in (ARG_W+4)/4 hexadecimal digits, the opcode last, after
"CW = 0x" (R55). Where 4 does not divide ARG_W the number of digits is rounded up, so that no bit is lost. -/
def listing (argW : Nat) (c : Command) : List Char :=
  ['C', 'W', ' ', '=', ' ', '0', 'x'] ++ hexDigits ((argW + 7) / 4) c.word

end Sys2Proof.Machine
end

