-- ==== Sys2Proof/Machine/Transaction.lean ====
section
/-! DEFINITION. The transaction-level view (60_exceptions.md R90) and what the host sees of a run at the pins
(60_exceptions.md R87, R89; 70_reset_and_hazards.md R111). -/

namespace Sys2Proof.Machine

/-- CoreState = (BREG, WREG, OUT) (R90). -/
structure CoreState where
  breg : Reg256
  wreg : WordFile
  out  : Out32
  deriving DecidableEq, Repr

/-- The architectural registers of a state. -/
def State.core (s : State) : CoreState := ⟨s.breg, s.wreg, s.out⟩

/-- The architectural registers and the pending response a command leaves when it runs in `s`. -/
def State.outcomeOf (s : State) (c : Command) : CoreState × Response :=
  match exec (decodeCommand c) s with
  | .next t =>
    match t.seq with
    | .resp r => (t.core, r)
    | .init _ | .idle | .busy _ _ => (t.core, ⟨0, 0⟩)
  | .fault _ | .refused _ => (s.core, ⟨0, 0⟩)

/-- step : CoreState × command -> CoreState × response: "step is the command's pseudocode ... or rule R91 for a
reserved opcode" (R90). -/
def transact (b : Build) (k : CoreState) (c : Command) : CoreState × Response :=
  State.outcomeOf
    { build := b, breg := k.breg, wreg := k.wreg, out := k.out, seq := .busy c 0, inputs := [], draws := 0 } c

/-- A sequence of commands at transaction level: the registers after it and its responses, in order (R43, R111). -/
def transactAll (b : Build) : CoreState → List Command → CoreState × List Response
  | k, [] => (k, [])
  | k, c :: cs =>
    ((transactAll b (transact b k c).1 cs).1, (transact b k c).2 :: (transactAll b (transact b k c).1 cs).2)

/-- What crosses the ports at the coming edge. -/
inductive Event where
  /-- The command is accepted (R87). -/
  | accepted (c : Command)
  /-- The response is taken (R89). -/
  | taken (r : Response)
  deriving DecidableEq, Repr

/-- What crosses the ports at the coming edge, if anything does (R87, R89, R93). -/
def State.event (s : State) : Option Event :=
  match s.pins.rst with
  | true => none
  | false =>
    match s.seq with
    | .idle =>
      match s.pins.cmdValid with
      | true => some (.accepted (portCommand s.build s.pins.cmdOp s.pins.cmdArg))
      | false => none
    | .resp r =>
      match s.pins.rspReady with
      | true => some (.taken r)
      | false => none
    | .init _ | .busy _ _ => none

/-- The state after n edges, and what crossed the ports at them, in order. -/
def observe : Nat → State → State × List Event
  | 0, s => (s, [])
  | n + 1, s =>
    match step s with
    | .next t => ((observe n t).1, s.event.toList ++ (observe n t).2)
    | .fault _ | .refused _ => (s, [])

/-- The commands of a list of events, in order. -/
def acceptedOf : List Event → List Command
  | [] => []
  | .accepted c :: es => c :: acceptedOf es
  | .taken _ :: es => acceptedOf es

/-- The responses of a list of events, in order. -/
def takenOf : List Event → List Response
  | [] => []
  | .accepted _ :: es => takenOf es
  | .taken r :: es => r :: takenOf es

/-- What a host drives to issue one command to an idle core and take its response as soon as it is there: the
offer, nothing while the command executes, then ready (R97). -/
def hostScript (b : Build) (c : Command) : List Pins :=
  ⟨false, true, c.op, c.arg, false⟩ ::
    (List.replicate (commandExtra b c + 1) Pins.quiet ++ [⟨false, false, 0, 0, true⟩])

/-- What a host drives to issue a program, each command after the response of the one before (R97, R111). -/
def programScript (b : Build) : List Command → List Pins
  | [] => []
  | c :: cs => hostScript b c ++ programScript b cs

end Sys2Proof.Machine
end

