-- ==== Sys2Proof/Reading.lean ====
section
/-! DEFINITION. The polynomial reading of a vector (00_scope.md R10, R11), in which the claims state what the
arithmetic computes. It is vocabulary of the claims: no step uses it. -/

namespace Sys2Proof

open Polynomial

/-- "A vector A of any width stands for the polynomial A(x) = sum over i of A[i]·x^i over GF(2)" (R10). -/
noncomputable def toPoly {w : Nat} (v : BitVec w) : (ZMod 2)[X] :=
  ∑ i ∈ Finset.range w, if v.getLsbD i then (X : (ZMod 2)[X]) ^ i else 0

/-- P = x^255 + x^31 + x^7 + x^3 + 1 (R23), written as a polynomial and not as a vector. -/
@[irreducible] noncomputable def polyP : (ZMod 2)[X] :=
  (X : (ZMod 2)[X]) ^ 255 + X ^ 31 + X ^ 7 + X ^ 3 + 1

/-- x^k mod P. -/
noncomputable def powX (k : Nat) : (ZMod 2)[X] := (X : (ZMod 2)[X]) ^ k %ₘ polyP

end Sys2Proof
end

