-- ==== Sys2Proof/Safety.lean ====
section
/-! DEFINITION. What a sound state is, in the terms the claims use. -/

namespace Sys2Proof.Machine

/-- The registers are reliable: not during INIT (R103). -/
def State.reliable (s : State) : Prop := ∀ left, s.seq ≠ .init left

/-- "Bit 0 of each register is therefore 0 after every command" (R17). -/
def State.shiftedForm (s : State) : Prop :=
  s.reliable → s.breg.getLsbD 0 = false ∧ (pack s.wreg).getLsbD 0 = false

/-- "The logical state is never the zero polynomial" (R17). -/
def State.nonzero (s : State) : Prop :=
  s.reliable → logical s.breg ≠ 0 ∧ logical (pack s.wreg) ≠ 0

/-- The latched argument has ARG_W bits (R22, R85, R87). -/
def State.latchedFits (s : State) : Prop :=
  ∀ c left, s.seq = .busy c left → c.arg < 2 ^ s.build.argW

/-- A pending response is one the spec lets the core produce: OK, or ILLEGAL_OP with data 0 (R49, R91). -/
def State.responseLegal (s : State) : Prop :=
  ∀ r, s.seq = .resp r → r.status = statusOk ∨ r = ⟨statusIllegalOp, 0⟩

/-- The invariant of the machine. -/
structure State.Inv (s : State) : Prop where
  shiftedForm   : s.shiftedForm
  nonzero       : s.nonzero
  latchedFits   : s.latchedFits
  responseLegal : s.responseLegal

/-- The host drives no reset at any coming edge. -/
def State.noReset (s : State) : Prop := ∀ p ∈ s.inputs, p.rst = false

/-- Every command word of a program can be written: its argument has ARG_W bits (R51, R111). -/
def programFits (b : Build) (cs : List Command) : Prop := ∀ c ∈ cs, c.arg < 2 ^ b.argW

end Sys2Proof.Machine
end

