-- ==== Sys2Proof/Certificates/Slice0/Obligations.lean ====
section
/-! DEFINITION. The statements for the provers. Each formalises rules of spec/, named in its docstring. -/

open Sys2Proof Sys2Proof.Machine Polynomial

/-! ## Commands and their words -/

/-- R47, R50, R51, R54: the encoder's word of every well-formed command decodes to that command, every operand at
every value ARG_W admits. -/
def Obligations.DecodeOfEncodeIsTheCommand : Prop :=
  ∀ (argW : Nat) (i : Instr), i.wellFormed argW = true → decode argW (encode i) = .ok i

/-- R47, R54: every number of at most ARG_W + 4 bits is the word of exactly the well-formed command it decodes to;
a wider number is no command word and is rejected by name. -/
def Obligations.EveryCommandWordDecodes : Prop :=
  ∀ argW w : Nat,
    (w < 2 ^ (argW + 4) → ∃ i, decode argW w = .ok i ∧ i.wellFormed argW = true ∧ encode i = w) ∧
    (2 ^ (argW + 4) ≤ w → decode argW w = .error (.tooWide w))

/-- R50: the opcode map, and "A match on all four bits of op decides the command. Nothing else in CW affects
decoding": whatever the argument, each op gives its command, and the mask and match of exactly that command's
row of the table match op. -/
def Obligations.OpcodeMap : Prop :=
  ∀ arg : Nat,
    decodeCommand ⟨0x0, arg⟩ = .reservedZero arg ∧
    decodeCommand ⟨0x1, arg⟩ = .seed arg ∧
    decodeCommand ⟨0x2, arg⟩ = .seedDefault arg ∧
    decodeCommand ⟨0x3, arg⟩ = .nextBs arg ∧
    decodeCommand ⟨0x4, arg⟩ = .nextWv arg ∧
    decodeCommand ⟨0x5, arg⟩ = .discard arg ∧
    decodeCommand ⟨0x6, arg⟩ = .getMin arg ∧
    decodeCommand ⟨0x7, arg⟩ = .getMax arg ∧
    (∀ low : BitVec 3, decodeCommand ⟨1#1 ++ low, arg⟩ = .reservedHigh low arg) ∧
    (∀ (op : BitVec 4) (i : Instr), op &&& i.row.2 = i.row.1 ↔ (decodeCommand ⟨op, arg⟩).row = i.row)

/-- R47: op is CW[3:0], arg is CW[ARG_W+3:4], and CW has ARG_W + 4 bits. -/
def Obligations.CommandWordLayout : Prop :=
  ∀ (argW : Nat) (c : Command), c.arg < 2 ^ argW →
    c.word < 2 ^ (argW + 4) ∧
    (∀ k < 4, c.word.testBit k = c.op.getLsbD k) ∧
    (∀ k < argW, c.word.testBit (k + 4) = c.arg.testBit k)

/-- The command words that 95_test_vectors.md section 6.6 lists decode to the commands it lists. -/
def Obligations.ListedCommandWordsDecode : Prop :=
  decode 64 0x00000000000000006 = .ok (.getMin 0) ∧
  decode 64 0x00000000000000007 = .ok (.getMax 0) ∧
  decode 64 0x000000000000ffff6 = .ok (.getMin 0xFFFF) ∧
  decode 64 0x00000000000000000 = .ok (.reservedZero 0) ∧
  decode 64 0x00000000000000059 = .ok (.reservedHigh 1 5) ∧
  decode 64 0xfffffffffffffffff = .ok (.reservedHigh 7 (2 ^ 64 - 1)) ∧
  decode 64 0x00000000000000051 = .ok (.seed 5) ∧
  decode 64 0x00000000000000005 = .ok (.discard 0) ∧
  decode 64 0x00000000000000002 = .ok (.seedDefault 0) ∧
  decode 64 0x00000000000000003 = .ok (.nextBs 0) ∧
  decode 64 0x00000000000000004 = .ok (.nextWv 0)

/-- R75, R87, R88: at the edge that ends an execution the step runs the command its latched word decodes to, in
the state with that edge's inputs consumed. The second clause is the model's choice (log entry 12): the step after
`withFetchWord`, which places a word where the sequencer latches it, runs the command that word decodes to, on the
registers of the given state. -/
def Obligations.StepRunsTheDecodedCommand : Prop :=
  (∀ (s : State) (c : Command) (i : Instr),
    s.pins.rst = false → s.seq = .busy c 0 → decode s.build.argW c.word = .ok i →
    step s = exec i { s with inputs := s.inputs.tail, draws := s.draws + 1 }) ∧
  (∀ (s : State) (nbits w : Nat) (i : Instr),
    decode s.build.argW (w % 2 ^ nbits) = .ok i →
    step (s.withFetchWord nbits w) =
      exec i { s with seq := .busy (Command.ofWord (w % 2 ^ nbits)) 0, draws := s.draws + 1 })

/-- R48: RW[1:0] is the status and RW[33:2] the data. -/
def Obligations.ResponseWordLayout : Prop :=
  ∀ r : Response,
    (∀ k < 2, r.word.getLsbD k = r.status.getLsbD k) ∧ (∀ k < 32, r.word.getLsbD (k + 2) = r.data.getLsbD k)

/-- R49: OK answers every command with an assigned opcode, ILLEGAL_OP every command with a reserved one, and the
codes 0b10 and 0b11 are never produced. -/
def Obligations.StatusOfEachCommand : Prop :=
  ∀ (i : Instr) (s : State), ∃ (t : State) (r : Response),
    exec i s = .next t ∧ t.seq = .resp r ∧
    ((1 ≤ i.op.toNat ∧ i.op.toNat ≤ 7) → r.status = 0b00) ∧
    ((i.op.toNat = 0 ∨ 8 ≤ i.op.toNat) → r.status = 0b01) ∧
    r.status ≠ 0b10 ∧ r.status ≠ 0b11

/-! ## Field arithmetic -/

/-- R58: CLMUL is the product of polynomials, with its corner cases and examples. -/
def Obligations.ClmulIsThePolynomialProduct : Prop :=
  (∀ a b : Reg256,
    toPoly (clmul a b) = toPoly a * toPoly b ∧
    (clmul a b).getLsbD 511 = false ∧
    clmul a 0 = 0 ∧ clmul 0 b = 0 ∧
    clmul a 1 = a.setWidth 512 ∧
    (∀ k < 256, clmul a (1 <<< k) = a.setWidth 512 <<< k) ∧
    clmul a b = clmul b a ∧
    (a ≠ 0 → b ≠ 0 → (toPoly (clmul a b)).natDegree = (toPoly a).natDegree + (toPoly b).natDegree)) ∧
  (clmul (BitVec.allOnes 256) (BitVec.allOnes 256)).getLsbD 510 = true ∧
  clmul 0x3 0x3 = 0x5 ∧ clmul 0xFF 0xFF = 0x5555

/-- R59: REDUCE is the remainder modulo P; what one step of its division changes; its corner cases and example. -/
def Obligations.ReduceIsTheRemainder : Prop :=
  (∀ c : Scratch,
    toPoly (reduce c) = toPoly c %ₘ polyP ∧
    (remLoop mod512 255 257 c).toNat < 2 ^ 255 ∧
    (c.toNat < 2 ^ 255 → reduce c = c.setWidth 255) ∧
    (∀ d : Scratch, reduce (c ^^^ d) = reduce c ^^^ reduce d) ∧
    (∀ k, 255 ≤ k → k ≤ 511 → ∀ j < 512,
      ((c ^^^ (mod512 <<< (k - 255))).getLsbD j ≠ c.getLsbD j ↔
        j = k ∨ j = k - 224 ∨ j = k - 248 ∨ j = k - 252 ∨ j = k - 255))) ∧
  reduce mod512 = 0 ∧
  reduce (1 <<< 255) = 0x80000089 ∧
  reduce 0 = 0 ∧
  reduce (1 <<< 510) = 0x4000000000004041

/-- R60: MULMOD is the product modulo P, on every pair of 256-bit operands, with its corner cases and example. -/
def Obligations.MulmodIsTheProductModuloP : Prop :=
  (∀ a b : Reg256,
    toPoly (mulmod a b) = (toPoly a * toPoly b) %ₘ polyP ∧
    mulmod a 0 = 0 ∧
    mulmod a 1 = reduce (a.setWidth 512)) ∧
  mulmod (1 <<< 254) (1 <<< 1) = 0x80000089 ∧
  mulmod (1 <<< 128) (1 <<< 128) = 0x100000112 ∧
  deg2 8 = 0x100000112 ∧
  mulmod (1 <<< 254) (1 <<< 254) = 0x2000000000000000000000000000000000000000000000001000000020001032 ∧
  mulmod (1 <<< 1) ((1 <<< 254) ^^^ (1 <<< 30) ^^^ (1 <<< 6) ^^^ (1 <<< 2)) = 1 ∧
  mulmod 0xDEADBEEF 0x12345678 = 0xC42FDE8DE112DA8

/-- R62: the laws of the arithmetic on operands of degree below 255. -/
def Obligations.FieldLaws : Prop :=
  ∀ a b c : Elem,
    a ^^^ a = 0 ∧
    mulElem a b = mulElem b a ∧
    mulElem (mulElem a b) c = mulElem a (mulElem b c) ∧
    mulElem a (b ^^^ c) = mulElem a b ^^^ mulElem a c ∧
    mulElem a 1 = a ∧
    mulElem a 0 = 0 ∧
    mulElem (a ^^^ b) (a ^^^ b) = mulElem a a ^^^ mulElem b b ∧
    toPoly (mulElem a a) = (∑ i ∈ Finset.range 255, if a.getLsbD i then (X : (ZMod 2)[X]) ^ (2 * i) else 0) %ₘ polyP

/-- R61: XS multiplies a logical state by x modulo P, XSS does the same to a register in shifted form, the two
agree, XSS leaves bit 0 clear, and NEXT_BS applies XSS 32 times. -/
def Obligations.ShiftConventionMultipliesByX : Prop :=
  (∀ s : Elem,
    toPoly (xs s) = (X * toPoly s) %ₘ polyP ∧
    xss (shifted s) = shifted (xs s) ∧
    toPoly (xss (shifted s)) = X * ((X * toPoly s) %ₘ polyP)) ∧
  (∀ S : Reg256, (xss S).getLsbD 0 = false ∧ (nextBs S).1 = xss^[32] S)

/-- R63 with R23: multiplying by x never gives 0, and two numbers of steps of the bit-serial generator lead from 1 to
the same state exactly when they agree modulo 2^255 - 1, in canonical form (XS) and in a register (XSS); two jumps
from 1 agree exactly when the exponents they stand for do. -/
def Obligations.PowersOfXHaveTheFullPeriod : Prop :=
  (∀ a b : Nat,
    xs^[a] (1 : Elem) ≠ 0 ∧
    (xs^[a] (1 : Elem) = xs^[b] (1 : Elem) ↔ a % (2 ^ 255 - 1) = b % (2 ^ 255 - 1)) ∧
    (xss^[a] (shifted 1) = xss^[b] (shifted 1) ↔ a % (2 ^ 255 - 1) = b % (2 ^ 255 - 1))) ∧
  (∀ e e' n base : Nat, e < 2 ^ n → e' < 2 ^ n → n + base ≤ 256 →
    (jump 1 e n base = jump 1 e' n base ↔ e * 2 ^ base % (2 ^ 255 - 1) = e' * 2 ^ base % (2 ^ 255 - 1)))

/-- R63, R76: distinct seeds give distinct register states, whatever the state before. -/
def Obligations.DistinctSeedsGiveDistinctStates : Prop :=
  ∀ (s s' t t' : State) (v v' : Nat),
    s.build = s'.build → v < 2 ^ s.build.argW → v' < 2 ^ s.build.argW → v ≠ v' →
    exec (.seed v) s = .next t → exec (.seed v') s' = .next t' → t.breg ≠ t'.breg ∧ t.wreg ≠ t'.wreg

/-! ## The power table and JUMP -/

/-- R64: DEG2[i] = x^(2^i) mod P by repeated squaring from x, with the entries the rule lists. -/
def Obligations.PowerTableContents : Prop :=
  deg2 0 = 0x2 ∧
  (∀ i, 1 ≤ i → i ≤ 255 →
    deg2 (BitVec.ofNat 8 i) = mulElem (deg2 (BitVec.ofNat 8 (i - 1))) (deg2 (BitVec.ofNat 8 (i - 1)))) ∧
  (∀ i : BitVec 8, toPoly (deg2 i) = powX (2 ^ i.toNat)) ∧
  deg2 1 = 0x4 ∧ deg2 5 = 0x100000000 ∧ deg2 7 = 0x100000000000000000000000000000000 ∧
  deg2 8 = 0x100000112 ∧ deg2 9 = 0x10000000000010104 ∧ deg2 32 = 0x10000000000010112 ∧ deg2 255 = 0x2

/-- R65: each entry squared is the next one, and the last one squared is entry 1. -/
def Obligations.PowerTableSquares : Prop :=
  (∀ K ≤ 254, mulElem (deg2 (BitVec.ofNat 8 K)) (deg2 (BitVec.ofNat 8 K)) = deg2 (BitVec.ofNat 8 (K + 1))) ∧
  mulElem (deg2 255) (deg2 255) = deg2 1

/-- R66: JUMP(s, e, n, base) = (s · x^(e·2^base)) mod P for every e below 2^n, where the table has every index
read; with its corner cases and examples. -/
def Obligations.JumpMultipliesByAPowerOfX : Prop :=
  (∀ (s : Elem) (e n base : Nat), e < 2 ^ n → n + base ≤ 256 →
    toPoly (jump s e n base) = (toPoly s * X ^ (e * 2 ^ base)) %ₘ polyP ∧
    toPoly (jump 1 e n base) = powX (e * 2 ^ base)) ∧
  (∀ (s : Elem) (n base : Nat), jump s 0 n base = s ∧ jumpReads 0 n base = []) ∧
  (∀ n base : Nat, (∀ k < n, jumpReads (2 ^ k) n base = [k + base]) ∧ (jumpReads (2 ^ n - 1) n base).length = n) ∧
  jump 1 5 32 0 = 0x20 ∧ jump 1 1 64 32 = 0x10000000000010112 ∧ jump 1 1 64 5 = 0x100000000

/-- R67: no JUMP of a command reads DEG2 past index 255, and the seed's indices lie above the offset's. -/
def Obligations.JumpIndicesStayInTheTable : Prop :=
  ∀ (b : Build) (e : Nat),
    (∀ i ∈ jumpReads e 32 0, i ≤ 31) ∧
    (∀ i ∈ jumpReads e b.argW 32, 32 ≤ i ∧ i ≤ b.argW + 31 ∧ i ≤ 255) ∧
    (∀ i ∈ jumpReads e b.argW 5, 5 ≤ i ∧ i ≤ b.argW + 4 ∧ i ≤ 228)

/-- R69: JUMP performs exactly popcount(e mod 2^n) MULMODs, each with one DEG2 entry: it is the product of the
entries it reads. -/
def Obligations.JumpCostsOneProductPerSetBit : Prop :=
  ∀ (s : Elem) (e n base : Nat),
    (jumpReads e n base).length = (e % 2 ^ n).bits.count true ∧
    jump s e n base = (jumpReads e n base).foldl (fun acc i => mulElem acc (deg2 (BitVec.ofNat 8 i))) s

/-- R68: the four composition laws of JUMP. -/
def Obligations.JumpsCompose : Prop :=
  (∀ (s : Elem) (e1 e2 n1 n2 n b : Nat), e1 < 2 ^ n1 → e2 < 2 ^ n2 → e1 + e2 < 2 ^ n →
    n1 + b ≤ 256 → n2 + b ≤ 256 → n + b ≤ 256 →
    jump (jump s e1 n1 b) e2 n2 b = jump s (e1 + e2) n b) ∧
  (∀ (s : Elem) (e n b : Nat), n + b + 1 ≤ 256 → jump s e n (b + 1) = jump s (2 * e) (n + 1) b) ∧
  (∀ (s : Elem) (e n : Nat), e < 2 ^ n → n + 5 ≤ 256 →
    toPoly (jump (jump s e n 5) 1 1 0) = (toPoly s * X ^ (32 * e + 1)) %ₘ polyP) ∧
  (∀ (s : Elem) (e n base : Nat) (order : List Nat), order.Perm (jumpReads e n base) →
    order.foldl (fun acc i => mulElem acc (deg2 (BitVec.ofNat 8 i))) s = jump s e n base)

/-! ## The word-reduction table -/

/-- R70: TROM[v] = (v·x^256) mod (x·P). -/
def Obligations.WordTableContents : Prop :=
  ∀ v : Word16, toPoly (trom v) = (toPoly v * X ^ 256) %ₘ (X * polyP)

/-- R71: the closed form of TROM, its consequences and its examples. -/
def Obligations.WordTableClosedForm : Prop :=
  (∀ v : Word16,
    trom v = (clmul (v.setWidth 256) fb256).setWidth 48 ∧
    trom v = (v.setWidth 48 <<< 1) ^^^ (v.setWidth 48 <<< 4) ^^^ (v.setWidth 48 <<< 8) ^^^ (v.setWidth 48 <<< 32) ∧
    (trom v).extractLsb' 32 16 = v ∧
    (trom v).extractLsb' 24 8 = 0 ∧
    (trom v).getLsbD 0 = false) ∧
  trom 0x0000 = 0x000000000000 ∧ trom 0x0001 = 0x000100000112 ∧
  trom 0x8000 = 0x800000890000 ∧ trom 0xFFFF = 0xFFFF00F1FF0E

/-- R72: BUILD_TROM yields exactly the contents of R70. -/
def Obligations.WordTableConstruction : Prop := ∀ v : Word16, buildTrom v = trom v

/-- R73: TROM is linear, so an entry is the XOR of the entries of its index's set bits. -/
def Obligations.WordTableIsLinear : Prop :=
  (∀ a b : Word16, trom (a ^^^ b) = trom a ^^^ trom b) ∧
  (∀ v : Word16,
    trom v = (List.range 16).foldl (fun t k => bif v.getLsbD k then t ^^^ trom (1 <<< k) else t) 0)

/-- R74: the entry of a word that leaves the top at word offset k is placed k words up; so in an advance of the
word register the entry of WREG[1] enters at packed bits 47..0 and that of WREG[0] at 63..16. -/
def Obligations.WordTablePlacement : Prop :=
  (∀ v : Word16, ∀ k < 2,
    (toPoly v * X ^ (256 + 16 * k)) %ₘ (X * polyP) = toPoly ((trom v).setWidth 256 <<< (16 * k))) ∧
  (∀ w : WordFile,
    pack (advanceWords w) =
      (pack w <<< 32) ^^^ (trom w[1]).setWidth 256 ^^^ ((trom w[0]).setWidth 256 <<< 16))

/-! ## The commands -/

/-- R76: `SEED v` completes from every state; both registers take x·(x^(SEP_OFFSET + v·2^32) mod P), packed most
significant word first, whatever they held; OUT, the build, the inputs still to come and everything else stay;
the response is OK with data 0. -/
def Obligations.SeedLoadsBothRegisters : Prop :=
  ∀ (s : State) (v : Nat), v < 2 ^ s.build.argW →
    ∃ B : Reg256,
      exec (.seed v) s = .next { s with breg := B, wreg := unpack B, seq := .resp ⟨0b00, 0⟩ } ∧
      toPoly B = X * powX (s.build.sepOffset.toNat + v * 2 ^ 32) ∧
      pack (unpack B) = B ∧
      (∀ k : Fin 16, (unpack B)[k] = B.extractLsb' (240 - 16 * k.val) 16) ∧
      B.getLsbD 0 = false ∧ B ≠ 0 ∧
      (s.build.sepOffset = 0 → v = 0 → B = 0x2)

/-- R77: SEED_DEFAULT is SEED DEFAULT_SEED, response included, and its register state is that of reset. -/
def Obligations.SeedDefaultIsSeedOfTheDefault : Prop :=
  ∀ (s : State) (arg : Nat),
    s.build.defaultSeed < 2 ^ s.build.argW ∧
    exec (.seedDefault arg) s = exec (.seed s.build.defaultSeed) s ∧
    exec (.seedDefault arg) s =
      .next { s with breg := (State.resetOf s.build).breg, wreg := (State.resetOf s.build).wreg,
                     seq := .resp ⟨0b00, 0⟩ }

/-- R78: NEXT_BS completes from every state; it returns BREG[255:224] as it was, in OUT and in the response, and
BREG becomes (x^32·BREG) mod (x·P), which is x^32·s_B mod P of the logical state where bit 0 of BREG is 0; WREG
and everything else stay. -/
def Obligations.NextBsReturnsTheTopOfBreg : Prop :=
  ∀ (s : State) (arg : Nat),
    ∃ B : Reg256,
      exec (.nextBs arg) s =
        .next { s with breg := B, out := s.breg.extractLsb' 224 32,
                       seq := .resp ⟨0b00, s.breg.extractLsb' 224 32⟩ } ∧
      toPoly B = (X ^ 32 * toPoly s.breg) %ₘ (X * polyP) ∧
      (s.breg.getLsbD 0 = false → toPoly (logical B) = (X ^ 32 * toPoly (logical s.breg)) %ₘ polyP) ∧
      B.getLsbD 0 = false ∧
      (s.breg.extractLsb' 224 32 = 0 → B = s.breg <<< 32)

/-- R79: NEXT_WV completes from every state; it returns WREG[0] ++ WREG[1], in OUT and in the response; the
packed WREG becomes (x^32·Wpk) mod (x·P), which is x^32·s_W mod P of the logical state where bit 0 of Wpk is 0;
words 0 to 11 are copies, words 12 to 15 take the table entries as the rule places them; BREG and everything else
stay. -/
def Obligations.NextWvReturnsTheTopWords : Prop :=
  ∀ (s : State) (arg : Nat),
    ∃ W : WordFile,
      exec (.nextWv arg) s =
        .next { s with wreg := W, out := s.wreg[0] ++ s.wreg[1],
                       seq := .resp ⟨0b00, s.wreg[0] ++ s.wreg[1]⟩ } ∧
      toPoly (pack W) = (X ^ 32 * toPoly (pack s.wreg)) %ₘ (X * polyP) ∧
      ((pack s.wreg).getLsbD 0 = false →
        toPoly (logical (pack W)) = (X ^ 32 * toPoly (logical (pack s.wreg))) %ₘ polyP) ∧
      (∀ (k : Nat) (h : k < 12), W[k] = s.wreg[k + 2]) ∧
      W[12] = s.wreg[14] ^^^ s.wreg[0] ∧
      W[13] = s.wreg[15] ^^^ s.wreg[1] ^^^ (trom s.wreg[0]).extractLsb' 16 16 ∧
      W[14] = (trom s.wreg[1]).extractLsb' 16 16 ^^^ (trom s.wreg[0]).extractLsb' 0 16 ∧
      W[15] = (trom s.wreg[1]).extractLsb' 0 16

/-- R80: `DISCARD z` completes from every state; the logical state of BREG is multiplied by x^(32·z) modulo P;
WREG, OUT and everything else stay; the response is OK with data 0; z = 0 leaves BREG as it was. -/
def Obligations.DiscardJumpsBreg : Prop :=
  ∀ (s : State) (z : Nat), z < 2 ^ s.build.argW →
    ∃ B : Reg256,
      exec (.discard z) s = .next { s with breg := B, seq := .resp ⟨0b00, 0⟩ } ∧
      toPoly (logical B) = (toPoly (logical s.breg) * X ^ (32 * z)) %ₘ polyP ∧
      B = logical B ++ (0#1) ∧
      (z = 0 → s.breg.getLsbD 0 = false → B = s.breg)

/-- R81, R82 with R25: GET_MIN and GET_MAX complete from every state, with status OK and data 0x00000000 and
0xFFFFFFFF, and change nothing but the sequencer. -/
def Obligations.BoundsAreConstant : Prop :=
  ∀ (s : State) (arg : Nat),
    exec (.getMin arg) s = .next { s with seq := .resp ⟨0b00, 0x00000000⟩ } ∧
    exec (.getMax arg) s = .next { s with seq := .resp ⟨0b00, 0xFFFFFFFF⟩ }

/-- R52, R91: a command with a reserved opcode is answered with ILLEGAL_OP and data 0, changes no register, and
does not read its argument. -/
def Obligations.ReservedOpcodesAreAnsweredIllegalOp : Prop :=
  ∀ (s : State) (arg : Nat),
    exec (.reservedZero arg) s = .next { s with seq := .resp ⟨0b01, 0⟩ } ∧
    (∀ low : BitVec 3, exec (.reservedHigh low arg) s = .next { s with seq := .resp ⟨0b01, 0⟩ }) ∧
    (∀ op : BitVec 4, op = 0x0 ∨ 0x8 ≤ op →
      exec (decodeCommand ⟨op, arg⟩) s = .next { s with seq := .resp ⟨0b01, 0⟩ })

/-- R53: the commands without an operand ignore their argument: every value gives the effect and the response of
arg = 0. -/
def Obligations.IgnoredArgumentsHaveNoEffect : Prop :=
  ∀ (s : State) (arg : Nat), ∀ op ∈ ([0x2, 0x3, 0x4, 0x6, 0x7] : List (BitVec 4)),
    exec (decodeCommand ⟨op, arg⟩) s = exec (decodeCommand ⟨op, 0⟩) s

/-- 10_state.md section 3: after a seed and after reset the two registers agree; NEXT_BS and DISCARD leave WREG
unchanged, NEXT_WV leaves BREG unchanged, GET_MIN, GET_MAX and an illegal command change neither. What the register
that moves becomes is said in the statements about NEXT_BS, NEXT_WV and DISCARD. -/
def Obligations.SeedingSynchronisesAndGenerationMovesOneRegister : Prop :=
  (∀ (s : State) (v : Nat),
    (∃ t, exec (.seed v) s = .next t ∧ pack t.wreg = t.breg) ∧
    (∃ t, exec (.seedDefault v) s = .next t ∧ pack t.wreg = t.breg) ∧
    (∃ t, exec (.nextBs v) s = .next t ∧ t.wreg = s.wreg) ∧
    (∃ t, exec (.discard v) s = .next t ∧ t.wreg = s.wreg) ∧
    (∃ t, exec (.nextWv v) s = .next t ∧ t.breg = s.breg) ∧
    (∀ i : Instr, i.op ∉ ([0x1, 0x2, 0x3, 0x4, 0x5] : List (BitVec 4)) →
      ∃ t, exec i s = .next t ∧ t.breg = s.breg ∧ t.wreg = s.wreg)) ∧
  (∀ b : Build, pack (State.resetOf b).wreg = (State.resetOf b).breg)

/-- R21: NEXT_BS and NEXT_WV write OUT with the value they return; no other command writes it. -/
def Obligations.OutHoldsTheLastOutput : Prop :=
  ∀ (i : Instr) (s : State), ∃ (t : State) (r : Response),
    exec i s = .next t ∧ t.seq = .resp r ∧
    (i.op = 0x3 ∨ i.op = 0x4 → t.out = r.data) ∧
    (i.op ≠ 0x3 → i.op ≠ 0x4 → t.out = s.out)

/-- R28, R48, R75: whatever the command, its execution changes no build parameter, consumes no input and ends in
one response. -/
def Obligations.EveryCommandEndsInOneResponse : Prop :=
  ∀ (i : Instr) (s : State), ∃ (t : State) (r : Response),
    exec i s = .next t ∧ t.seq = .resp r ∧ t.build = s.build ∧ t.inputs = s.inputs ∧ t.draws = s.draws

/-! ## Laws of the generator -/

/-- R83: where the two registers agree, NEXT_BS and NEXT_WV return the same data and leave the same register
value; so the streams of outputs of the two modes are equal, output for output. -/
def Obligations.TheTwoModesAgree : Prop :=
  (∀ (s : State) (a a' : Nat), pack s.wreg = s.breg →
    ∃ t u : State,
      exec (.nextBs a) s = .next t ∧ exec (.nextWv a') s = .next u ∧
      t.seq = u.seq ∧ t.out = u.out ∧ t.breg = pack u.wreg) ∧
  (∀ (b : Build) (k : CoreState) (n : Nat), pack k.wreg = k.breg →
    (transactAll b k (List.replicate n ⟨0x3, 0⟩)).2 = (transactAll b k (List.replicate n ⟨0x4, 0⟩)).2)

/-- R84 (jump-ahead matches stepping): `DISCARD z` leaves BREG as z NEXT_BS commands would, from every register
value with bit 0 clear. -/
def Obligations.DiscardEqualsStepping : Prop :=
  ∀ (b : Build) (k : CoreState) (z : Nat), z < 2 ^ b.argW → k.breg.getLsbD 0 = false →
    (transact b k ⟨0x5, z⟩).1.breg = (transactAll b k (List.replicate z ⟨0x3, 0⟩)).1.breg

/-- R84 (the exponent view): after SEED v and any commands that do not seed, the exponents of the two registers
are E + 32·(nB + Z) and E + 32·nW; and a NEXT command that finds x^e returns bits 254 to 223 of x^e mod P. -/
def Obligations.ExponentView : Prop :=
  (∀ (b : Build) (k : CoreState) (v : Nat) (cs : List Command),
    v < 2 ^ b.argW → programFits b cs → (∀ c ∈ cs, c.op ≠ 0x1 ∧ c.op ≠ 0x2) →
    toPoly (logical (transactAll b k (⟨0x1, v⟩ :: cs)).1.breg) =
      powX (b.sepOffset.toNat + v * 2 ^ 32 +
        32 * (cs.countP (fun c => c.op == 0x3) + ((cs.filter (fun c => c.op == 0x5)).map Command.arg).sum)) ∧
    toPoly (logical (pack (transactAll b k (⟨0x1, v⟩ :: cs)).1.wreg)) =
      powX (b.sepOffset.toNat + v * 2 ^ 32 + 32 * cs.countP (fun c => c.op == 0x4))) ∧
  (∀ (b : Build) (k : CoreState) (x : Elem),
    (k.breg = shifted x → (transact b k ⟨0x3, 0⟩).2.data = x.extractLsb' 223 32) ∧
    (pack k.wreg = shifted x → (transact b k ⟨0x4, 0⟩).2.data = x.extractLsb' 223 32))

/-- R107: where the registers agree and NEXT_BS and NEXT_WV follow in any interleaving, the k-th NEXT_BS and the
k-th NEXT_WV both return output number k of the one stream. -/
def Obligations.MixedModesReadTwoStreams : Prop :=
  ∀ (b : Build) (k : CoreState) (cs : List Command),
    pack k.wreg = k.breg → (∀ c ∈ cs, c.op = 0x3 ∨ c.op = 0x4) →
    ∀ op ∈ ([0x3, 0x4] : List (BitVec 4)),
      ((cs.zip (transactAll b k cs).2).filter (fun cr => cr.1.op == op)).map (fun cr => cr.2) =
        (transactAll b k (List.replicate (cs.countP (fun c => c.op == op)) ⟨0x3, 0⟩)).2

/-- R108: DISCARD has no effect on the word-vectorized stream: any NEXT_WV commands after it return what they
would have returned without it. -/
def Obligations.DiscardDoesNotReachTheWordStream : Prop :=
  ∀ (b : Build) (k : CoreState) (z n : Nat),
    (transactAll b (transact b k ⟨0x5, z⟩).1 (List.replicate n ⟨0x4, 0⟩)).2 =
      (transactAll b k (List.replicate n ⟨0x4, 0⟩)).2

/-- R76 (corner case), 95_test_vectors.md section 7: what SEED leaves in the registers, and its response, do not
depend on the state before it; so seeding twice is seeding once. -/
def Obligations.SeedForgetsTheState : Prop :=
  ∀ (b : Build) (k k' : CoreState) (v : Nat),
    (transact b k ⟨0x1, v⟩).1.breg = (transact b k' ⟨0x1, v⟩).1.breg ∧
    (transact b k ⟨0x1, v⟩).1.wreg = (transact b k' ⟨0x1, v⟩).1.wreg ∧
    (transact b k ⟨0x1, v⟩).2 = (transact b k' ⟨0x1, v⟩).2 ∧
    transact b (transact b k ⟨0x1, v⟩).1 ⟨0x1, v⟩ = transact b k ⟨0x1, v⟩

/-! ## The ports, reset and runs -/

/-- R86: the outputs are functions of ST; while a response is not taken it stays on the port unchanged. -/
def Obligations.HandshakeOutputs : Prop :=
  (∀ s : State,
    (s.cmdReady = true ↔ s.seq = .idle) ∧
    (s.rspValid = true ↔ ∃ r, s.seq = .resp r) ∧
    (∀ r, s.seq = .resp r → s.rspStatus = r.status ∧ s.rspData = r.data)) ∧
  (∀ s : State, s.rspValid = true → s.pins.rst = false → s.pins.rspReady = false →
    ∃ t, step s = .next t ∧ t.rspValid = true ∧ t.rspStatus = s.rspStatus ∧ t.rspData = s.rspData)

/-- R87: an offer in IDLE is accepted at that edge, opcode and argument latched and nothing else changed; outside
IDLE the command port has no effect. -/
def Obligations.CommandTransfer : Prop :=
  (∀ s : State, s.seq = .idle → s.pins.rst = false →
    (s.pins.cmdValid = true → ∃ left, step s = .next { s with
        seq := .busy ⟨s.pins.cmdOp, s.pins.cmdArg % 2 ^ s.build.argW⟩ left,
        inputs := s.inputs.tail, draws := s.draws + 1 }) ∧
    (s.pins.cmdValid = false → step s = .next { s with inputs := s.inputs.tail, draws := s.draws + 1 })) ∧
  (∀ (s : State) (p : Pins) (ps : List Pins) (valid : Bool) (op : BitVec 4) (arg : Nat), s.seq ≠ .idle →
    step { s with inputs := { p with cmdValid := valid, cmdOp := op, cmdArg := arg } :: ps } =
      step { s with inputs := p :: ps })

/-- R88 with R110: an accepted command changes no register and crosses no port for as many edges as its latency
parameter says, less one; at the next edge all its writes take effect together and its response is pending. The
latency is positive. Where a latency is looked up is the model's reading (log entry 4): at the command's argument,
and for a reserved opcode at 0 whatever its argument is. -/
def Obligations.ExecutionTakesItsLatency : Prop :=
  (∀ (s : State) (c : Command) (left : Nat), s.seq = .busy c left → s.noReset →
    (∀ n ≤ left, (observe n s).1.core = s.core ∧ (observe n s).1.seq = .busy c (left - n) ∧ (observe n s).2 = []) ∧
    (observe (left + 1) s).1.core = (transact s.build s.core c).1 ∧
    (observe (left + 1) s).1.seq = .resp (transact s.build s.core c).2 ∧
    (observe (left + 1) s).2 = []) ∧
  (∀ (b : Build) (a : Nat),
    commandExtra b ⟨0x1, a⟩ + 1 = b.lat.seed.cycles a ∧
    commandExtra b ⟨0x2, a⟩ + 1 = b.lat.seedDefault.cycles a ∧
    commandExtra b ⟨0x3, a⟩ + 1 = b.lat.nextBs.cycles a ∧
    commandExtra b ⟨0x4, a⟩ + 1 = b.lat.nextWv.cycles a ∧
    commandExtra b ⟨0x5, a⟩ + 1 = b.lat.discard.cycles a ∧
    commandExtra b ⟨0x6, a⟩ + 1 = b.lat.get.cycles a ∧
    commandExtra b ⟨0x7, a⟩ + 1 = b.lat.get.cycles a ∧
    (∀ op : BitVec 4, op = 0x0 ∨ 0x8 ≤ op → commandExtra b ⟨op, a⟩ + 1 = b.lat.illegal.cycles 0)) ∧
  (∀ (s : State), s.seq = .idle → s.pins.rst = false → s.pins.cmdValid = true →
    ∃ t, step s = .next t ∧
      t.seq = .busy (portCommand s.build s.pins.cmdOp s.pins.cmdArg)
        (commandExtra s.build (portCommand s.build s.pins.cmdOp s.pins.cmdArg)))

/-- R89: a response is taken at an edge with rsp_ready = 1 and the core is idle from there; while the host is not
ready the core holds the response and nothing changes, for as long as that lasts. -/
def Obligations.ResponseTransfer : Prop :=
  (∀ (s : State) (r : Response), s.seq = .resp r → s.pins.rst = false → s.pins.rspReady = true →
    step s = .next { s with seq := .idle, inputs := s.inputs.tail, draws := s.draws + 1 }) ∧
  (∀ (s : State) (r : Response) (n : Nat), s.seq = .resp r →
    (∀ p ∈ s.inputs.take n, p.rst = false ∧ p.rspReady = false) →
    observe n s = ({ s with inputs := s.inputs.drop n, draws := s.draws + n }, []))

/-- R103, R93: an edge with rst = 1 leaves the core in INIT with nothing pending, from every state; whatever else
is on the ports, nothing is accepted or taken at it. That the INIT count starts at LAT_INIT is the model's reading (log
entry 9). What BREG, WREG and OUT hold after such an edge is left open (log entry 6) and not claimed. -/
def Obligations.ResetTakesPriority : Prop :=
  (∀ s : State, s.pins.rst = true →
    s.event = none ∧
    ∃ t, step s = .next t ∧ t.seq = .init s.build.lat.init ∧ t.cmdReady = false ∧ t.rspValid = false ∧
      t.build = s.build ∧ t.inputs = s.inputs.tail) ∧
  (∀ (s : State) (p : Pins) (ps : List Pins), p.rst = true →
    step { s with inputs := p :: ps } = step { s with inputs := { Pins.quiet with rst := true } :: ps })

/-- R104, R105, R106, R31: from every state whatever, one edge with rst = 1 and then none leads to the reset state:
the core stays in INIT for LAT_INIT cycles from the first edge with rst = 0, then is idle with the registers of
R30; nothing crosses a port meanwhile, so an abandoned command gets no response. The exact edge that ends INIT is the
model's reading of R104 (log entry 9). -/
def Obligations.ResetSequence : Prop :=
  ∀ (s : State) (p : Pins) (ps : List Pins),
    s.inputs = p :: ps → p.rst = true → (∀ q ∈ ps, q.rst = false) →
    (∀ n ≤ s.build.lat.init, (observe (n + 1) s).1.seq = .init (s.build.lat.init - n)) ∧
    (observe (s.build.lat.init + 2) s).1.seq = .idle ∧
    (observe (s.build.lat.init + 2) s).1.breg = (State.resetOf s.build).breg ∧
    (observe (s.build.lat.init + 2) s).1.wreg = (State.resetOf s.build).wreg ∧
    (observe (s.build.lat.init + 2) s).1.build = s.build ∧
    (observe (s.build.lat.init + 2) s).2 = []

/-- R30: the reset state. BREG is x·(x^E0 mod P) with E0 = SEP_OFFSET + DEFAULT_SEED·2^32, WREG its sixteen words,
and the core is ready for a command with no response pending. -/
def Obligations.ResetState : Prop :=
  (∀ b : Build,
    toPoly (State.resetOf b).breg = X * powX (b.sepOffset.toNat + b.defaultSeed * 2 ^ 32) ∧
    (∀ k : Fin 16, (State.resetOf b).wreg[k] = (State.resetOf b).breg.extractLsb' (240 - 16 * k.val) 16) ∧
    (State.resetOf b).cmdReady = true ∧ (State.resetOf b).rspValid = false ∧ (State.resetOf b).build = b) ∧
  State.reset = State.resetOf Config.build

/-- The invariant holds at the reset state of every build (R17, R22, R30, R49). -/
def Obligations.ResetStateIsSound : Prop := ∀ b : Build, (State.resetOf b).Inv

/-- Every step keeps the invariant: outside INIT both registers are in shifted form with a nonzero logical state
(R17), the latched argument has ARG_W bits (R47, R87), and a pending response is one the core may produce (R49). -/
def Obligations.EveryStepKeepsTheInvariant : Prop :=
  ∀ s t : State, s.Inv → step s = .next t → t.Inv

/-- R90, R92, R95: the step is total: from every state it answers a next state, and so does every command. -/
def Obligations.TheCoreNeverStops : Prop :=
  ∀ s : State, (∃ t, step s = .next t) ∧ ∀ i : Instr, ∃ t, exec i s = .next t

/-- R29, R43, R88, R102: with no reset, and outside INIT, an edge that ends an execution leaves the registers and the
pending response that one command gives, and every other edge leaves the registers as they were. -/
def Obligations.OnlyACompletedCommandChangesRegisters : Prop :=
  ∀ s t : State, s.reliable → s.pins.rst = false → step s = .next t →
    t.build = s.build ∧
    (∀ c, s.seq = .busy c 0 →
      t.core = (transact s.build s.core c).1 ∧ t.seq = .resp (transact s.build s.core c).2) ∧
    ((∀ c, s.seq ≠ .busy c 0) → t.core = s.core)

/-- R90, R43: the two levels agree. However the host drives the ports (without reset), from an idle state to an
idle state, the responses taken are those of the accepted commands at transaction level, one for one and in
order, and the registers are those after them. -/
def Obligations.CycleLevelRefinesTransactionLevel : Prop :=
  ∀ (s : State) (n : Nat), s.seq = .idle → s.noReset → (observe n s).1.seq = .idle →
    (observe n s).1.core = (transactAll s.build s.core (acceptedOf (observe n s).2)).1 ∧
    takenOf (observe n s).2 = (transactAll s.build s.core (acceptedOf (observe n s).2)).2

/-- R111: the run of a program, for the one host that `programScript` writes out: it offers each command after the
response of the one before and takes the response at the first edge it is there. Every command is accepted, every
response taken, and the run ends idle in the state the commands give; the host interface's run of the machine is that
run. How many edges the script has rests on the model's reading of the latencies (log entry 4). -/
def Obligations.ProgramRunEnds : Prop :=
  ∀ (s : State) (cs : List Command), s.seq = .idle → programFits s.build cs → s.inputs = programScript s.build cs →
    (observe s.inputs.length s).1.seq = .idle ∧
    acceptedOf (observe s.inputs.length s).2 = cs ∧
    takenOf (observe s.inputs.length s).2 = (transactAll s.build s.core cs).2 ∧
    (observe s.inputs.length s).1.core = (transactAll s.build s.core cs).1 ∧
    Host.Core.run Sys2Proof.core s.inputs.length s = .next (observe s.inputs.length s).1

/-! ## The textual form -/

/-- 30_encoding.md section 5, R55 and R56: each mnemonic and each alias assembles to exactly the command its row names. SEED,
DISCARD and their aliases take one operand, below 2^ARG_W, and the others none, with arg = 0; any other number of
operands and a wider operand are rejected; an alias assembles to what its mnemonic does, whatever the operands. A row
of decimal digits is read as the number it writes; hexadecimal digits are the subject of the next statement. That a
bad line is rejected, and by these names, is the model's choice (log entry 17). -/
def Obligations.AliasesAssembleToTheirCommands : Prop :=
  (∀ (argW v : Nat) (w : List Char), parseNumber w = some v → v < 2 ^ argW →
    assembleWords argW [['S', 'E', 'E', 'D'], w] = .ok (some ⟨0x1, v⟩) ∧
    assembleWords argW [['r', 'e', 's', 'e', 'e', 'd'], w] = .ok (some ⟨0x1, v⟩) ∧
    assembleWords argW [['s', 'e', 'e', 'd'], w] = .ok (some ⟨0x1, v⟩) ∧
    assembleWords argW [['D', 'I', 'S', 'C', 'A', 'R', 'D'], w] = .ok (some ⟨0x5, v⟩) ∧
    assembleWords argW [['d', 'i', 's', 'c', 'a', 'r', 'd'], w] = .ok (some ⟨0x5, v⟩)) ∧
  (∀ argW : Nat,
    assembleWords argW [['S', 'E', 'E', 'D', '_', 'D', 'E', 'F', 'A', 'U', 'L', 'T']] = .ok (some ⟨0x2, 0⟩) ∧
    assembleWords argW [['N', 'E', 'X', 'T', '_', 'B', 'S']] = .ok (some ⟨0x3, 0⟩) ∧
    assembleWords argW [['g', 'e', 'n', 'e', 'r', 'a', 't', 'e']] = .ok (some ⟨0x3, 0⟩) ∧
    assembleWords argW [['N', 'E', 'X', 'T', '_', 'W', 'V']] = .ok (some ⟨0x4, 0⟩) ∧
    assembleWords argW [['g', 'e', 'n', 'e', 'r', 'a', 't', 'e', '_', 'f', 'a', 's', 't']] = .ok (some ⟨0x4, 0⟩) ∧
    assembleWords argW [['G', 'E', 'T', '_', 'M', 'I', 'N']] = .ok (some ⟨0x6, 0⟩) ∧
    assembleWords argW [['m', 'i', 'n']] = .ok (some ⟨0x6, 0⟩) ∧
    assembleWords argW [['G', 'E', 'T', '_', 'M', 'A', 'X']] = .ok (some ⟨0x7, 0⟩) ∧
    assembleWords argW [['m', 'a', 'x']] = .ok (some ⟨0x7, 0⟩)) ∧
  (∀ (argW v : Nat) (w : List Char), parseNumber w = some v → 2 ^ argW ≤ v →
    assembleWords argW [['S', 'E', 'E', 'D'], w] = .error .operandTooWide ∧
    assembleWords argW [['D', 'I', 'S', 'C', 'A', 'R', 'D'], w] = .error .operandTooWide) ∧
  (∀ (argW : Nat) (ws : List (List Char)),
    (ws.length ≠ 1 →
      assembleWords argW (['S', 'E', 'E', 'D'] :: ws) = .error .wrongOperands ∧
      assembleWords argW (['D', 'I', 'S', 'C', 'A', 'R', 'D'] :: ws) = .error .wrongOperands) ∧
    (ws ≠ [] →
      assembleWords argW (['S', 'E', 'E', 'D', '_', 'D', 'E', 'F', 'A', 'U', 'L', 'T'] :: ws) = .error .wrongOperands ∧
      assembleWords argW (['N', 'E', 'X', 'T', '_', 'B', 'S'] :: ws) = .error .wrongOperands ∧
      assembleWords argW (['N', 'E', 'X', 'T', '_', 'W', 'V'] :: ws) = .error .wrongOperands ∧
      assembleWords argW (['G', 'E', 'T', '_', 'M', 'I', 'N'] :: ws) = .error .wrongOperands ∧
      assembleWords argW (['G', 'E', 'T', '_', 'M', 'A', 'X'] :: ws) = .error .wrongOperands)) ∧
  (∀ (argW : Nat) (ws : List (List Char)),
    assembleNamed argW ['r', 'e', 's', 'e', 'e', 'd'] ws = assembleNamed argW ['S', 'E', 'E', 'D'] ws ∧
    assembleNamed argW ['s', 'e', 'e', 'd'] ws = assembleNamed argW ['S', 'E', 'E', 'D'] ws ∧
    assembleNamed argW ['g', 'e', 'n', 'e', 'r', 'a', 't', 'e'] ws =
      assembleNamed argW ['N', 'E', 'X', 'T', '_', 'B', 'S'] ws ∧
    assembleNamed argW ['g', 'e', 'n', 'e', 'r', 'a', 't', 'e', '_', 'f', 'a', 's', 't'] ws =
      assembleNamed argW ['N', 'E', 'X', 'T', '_', 'W', 'V'] ws ∧
    assembleNamed argW ['d', 'i', 's', 'c', 'a', 'r', 'd'] ws =
      assembleNamed argW ['D', 'I', 'S', 'C', 'A', 'R', 'D'] ws ∧
    assembleNamed argW ['m', 'i', 'n'] ws = assembleNamed argW ['G', 'E', 'T', '_', 'M', 'I', 'N'] ws ∧
    assembleNamed argW ['m', 'a', 'x'] ws = assembleNamed argW ['G', 'E', 'T', '_', 'M', 'A', 'X'] ws) ∧
  (∀ ds : List (Fin 10), ds ≠ [] →
    parseNumber (ds.map fun d => Char.ofNat ('0'.toNat + d.val)) = some (ds.foldl (fun n d => n * 10 + d.val) 0))

/-- 30_encoding.md section 5 (R55): the digits a listing shows of a well-formed command, read back, are its command
word; and the directive `.cmd` with hexadecimal digits as its operands gives every op and any argument below 2^ARG_W.
Two things here are the model's choice: the number of digits, (ARG_W+4)/4 rounded up where 4 does not divide ARG_W, and
their lower case (log entry 18); and the comma of `.cmd` as a word of its own (log entry 17). -/
def Obligations.ListingShowsTheCommandWord : Prop :=
  (∀ (argW : Nat) (c : Command), c.arg < 2 ^ argW →
    ∃ digits, listing argW c = ['C', 'W', ' ', '=', ' ', '0', 'x'] ++ digits ∧
      digits.length = (argW + 7) / 4 ∧ parseNumber ('0' :: 'x' :: digits) = some c.word) ∧
  (∀ (argW n v : Nat), v < 2 ^ argW → v < 16 ^ (n + 1) → ∀ op : BitVec 4,
    assembleWords argW
      [['.', 'c', 'm', 'd'], '0' :: 'x' :: hexDigits 1 op.toNat, [','], '0' :: 'x' :: hexDigits (n + 1) v] =
      .ok (some ⟨op, v⟩))
end

