-- ==== Sys2Proof/Laws/Decode.lean ====
section
/-! SUPPORT. What the decoder and the encoder do to the fields of a command. -/

namespace Sys2Proof

@[simp] theorem ofWord_op (cw : Nat) : (Command.ofWord cw).op = BitVec.ofNat 4 cw := rfl
@[simp] theorem ofWord_arg (cw : Nat) : (Command.ofWord cw).arg = cw / 16 := rfl

theorem word_div (c : Command) : c.word / 16 = c.arg := by
  have := c.op.isLt
  rw [Command.word]
  omega

theorem word_mod (c : Command) : c.word % 16 = c.op.toNat := by
  have := c.op.isLt
  rw [Command.word]
  omega

/-- The fields of a command's word are the command. -/
theorem ofWord_word (c : Command) : Command.ofWord c.word = c := by
  obtain ⟨op, arg⟩ := c
  have h : BitVec.ofNat 4 (Command.word ⟨op, arg⟩) = op := BitVec.eq_of_toNat_eq (by
    rw [BitVec.toNat_ofNat]
    exact word_mod ⟨op, arg⟩)
  rw [Command.ofWord, h]
  exact congrArg (Command.mk op) (word_div ⟨op, arg⟩)

/-- The word of a number's fields is the number. -/
theorem word_ofWord (cw : Nat) : (Command.ofWord cw).word = cw := by
  rw [Command.word, ofWord_op, ofWord_arg, BitVec.toNat_ofNat]
  omega

/-- A command's word has ARG_W + 4 bits exactly when its argument has ARG_W bits. -/
theorem word_lt_iff (argW : Nat) (c : Command) : c.word < 2 ^ (argW + 4) ↔ c.arg < 2 ^ argW := by
  have h := c.op.isLt
  have hp : 2 ^ (argW + 4) = 2 ^ argW * 16 := by rw [pow_add]; norm_num
  rw [hp, Command.word]
  omega

@[simp] theorem decodeCommand_arg (c : Command) : (decodeCommand c).arg = c.arg := by
  unfold decodeCommand
  split <;> rfl

end Sys2Proof
end

