-- ==== Sys2Proof/Laws/Poly.lean ====
section
/-! SUPPORT. The polynomial reading of vectors turned into algebra: XOR is addition, a shift is a power of x, and
the two loops of the arithmetic units are multiplication and division. -/

namespace Sys2Proof

open Polynomial

variable {w w' : Nat}

theorem toPoly_coeff (v : BitVec w) (k : Nat) : (toPoly v).coeff k = if v.getLsbD k then 1 else 0 := by
  have h : ∀ i, (if v.getLsbD i then (X : (ZMod 2)[X]) ^ i else 0).coeff k = if k = i then (if v.getLsbD i then 1 else 0) else 0 := by
    intro i
    cases v.getLsbD i <;> simp [coeff_X_pow]
  rw [toPoly, finsetSum_coeff, Finset.sum_congr rfl fun i _ => h i]
  by_cases hk : k < w
  · rw [Finset.sum_eq_single_of_mem k (Finset.mem_range.2 hk) fun i _ hi => if_neg hi.symm, if_pos rfl]
  · rw [BitVec.getLsbD_of_ge v k (by omega)]
    exact Finset.sum_eq_zero fun i hi => if_neg (by rw [Finset.mem_range] at hi; omega)

theorem toPoly_eq_iff (a : BitVec w) (b : BitVec w') : toPoly a = toPoly b ↔ ∀ i, a.getLsbD i = b.getLsbD i := by
  constructor
  · intro h i
    have := congrArg (fun p => Polynomial.coeff p i) h
    simp only [toPoly_coeff] at this
    cases ha : a.getLsbD i <;> cases hb : b.getLsbD i <;> simp [ha, hb] at this ⊢
  · intro h
    ext i
    rw [toPoly_coeff, toPoly_coeff, h i]

theorem toPoly_injective {a b : BitVec w} (h : toPoly a = toPoly b) : a = b :=
  BitVec.eq_of_getLsbD_eq fun i _ => (toPoly_eq_iff a b).1 h i

@[simp] theorem toPoly_zero : toPoly (0 : BitVec w) = 0 := by
  ext i; simp [toPoly_coeff]

@[simp] theorem toPoly_xor (a b : BitVec w) : toPoly (a ^^^ b) = toPoly a + toPoly b := by
  ext i
  rw [coeff_add, toPoly_coeff, toPoly_coeff, toPoly_coeff, BitVec.getLsbD_xor]
  cases a.getLsbD i <;> cases b.getLsbD i <;> decide

theorem toPoly_setWidth_of_bits (v : BitVec w) (h : ∀ i, w' ≤ i → v.getLsbD i = false) :
    toPoly (v.setWidth w') = toPoly v := by
  rw [toPoly_eq_iff]
  intro i
  by_cases hi : i < w'
  · simp [hi]
  · rw [h i (by omega), BitVec.getLsbD_of_ge _ _ (by omega)]

/-- Zero extension does not change the polynomial. -/
theorem toPoly_zext (v : BitVec w) (h : w ≤ w') : toPoly (v.setWidth w') = toPoly v :=
  toPoly_setWidth_of_bits v fun i hi => BitVec.getLsbD_of_ge v i (by omega)

/-- A shift that loses no bit is multiplication by a power of x. -/
theorem toPoly_shiftLeft (v : BitVec w) (n : Nat) (h : ∀ i, w ≤ i + n → v.getLsbD i = false) :
    toPoly (v <<< n) = (X : (ZMod 2)[X]) ^ n * toPoly v := by
  ext i
  rw [coeff_X_pow_mul', toPoly_coeff, toPoly_coeff, BitVec.getLsbD_shiftLeft]
  by_cases hn : n ≤ i
  · by_cases hi : i < w
    · simp [hn, hi, show ¬ i < n by omega]
    · rw [h (i - n) (by omega)]; simp [hi]
  · simp [hn, show i < n by omega]

theorem toPoly_degree_lt (v : BitVec w) (d : Nat) (h : ∀ i, d ≤ i → v.getLsbD i = false) : (toPoly v).degree < d := by
  rw [degree_lt_iff_coeff_zero]
  intro i hi
  rw [toPoly_coeff, h i hi]
  simp

theorem toPoly_degree_lt_width (v : BitVec w) : (toPoly v).degree < w :=
  toPoly_degree_lt v w fun i hi => BitVec.getLsbD_of_ge v i hi

theorem bit_of_degree_lt (v : BitVec w) {d i : Nat} (h : (toPoly v).degree < d) (hi : d ≤ i) : v.getLsbD i = false := by
  have := (degree_lt_iff_coeff_zero _ _).1 h i hi
  rw [toPoly_coeff] at this
  cases hv : v.getLsbD i <;> simp [hv] at this ⊢

theorem poly_add_self (p : (ZMod 2)[X]) : p + p = 0 := CharTwo.add_self_eq_zero p

theorem toPoly_ne_zero {v : BitVec w} (h : v ≠ 0) : toPoly v ≠ 0 := fun h0 =>
  h (toPoly_injective (h0.trans toPoly_zero.symm))

end Sys2Proof
end

