-- ==== Sys2Proof/Laws/FieldArith.lean ====
section
/-! SUPPORT. One spec lemma for each arithmetic unit: what it computes, as a polynomial. -/

namespace Sys2Proof

open Polynomial Machine

/-! ### The modulus -/

/-- A vector with a handful of set bits reads as the sum of those powers of x. -/
theorem toPoly_of_bits {w : Nat} (v : BitVec w) (bits : Finset Nat) (h : ∀ i, v.getLsbD i = decide (i ∈ bits)) :
    toPoly v = ∑ i ∈ bits, (X : (ZMod 2)[X]) ^ i := by
  ext k
  rw [toPoly_coeff, h, finsetSum_coeff]
  by_cases hk : k ∈ bits
  · rw [Finset.sum_eq_single_of_mem k hk fun i _ hi => by rw [coeff_X_pow, if_neg hi.symm]]
    simp [hk]
  · rw [Finset.sum_eq_zero fun i hi => by rw [coeff_X_pow, if_neg (by rintro rfl; exact hk hi)]]
    simp [hk]

theorem mod512_bits (i : Nat) : mod512.getLsbD i = decide (i ∈ ({255, 31, 7, 3, 0} : Finset Nat)) := by
  by_cases h : i < 512
  · have : ∀ i < 512, mod512.getLsbD i = decide (i ∈ ({255, 31, 7, 3, 0} : Finset Nat)) := by decide +kernel
    exact this i h
  · rw [BitVec.getLsbD_of_ge _ _ (by omega)]
    have : i ∉ ({255, 31, 7, 3, 0} : Finset Nat) := by
      simp only [Finset.mem_insert, Finset.mem_singleton]; omega
    simp [this]

theorem fb256_bits (i : Nat) : fb256.getLsbD i = decide (i ∈ ({32, 8, 4, 1} : Finset Nat)) := by
  by_cases h : i < 256
  · have : ∀ i < 256, fb256.getLsbD i = decide (i ∈ ({32, 8, 4, 1} : Finset Nat)) := by decide +kernel
    exact this i h
  · rw [BitVec.getLsbD_of_ge _ _ (by omega)]
    have : i ∉ ({32, 8, 4, 1} : Finset Nat) := by
      simp only [Finset.mem_insert, Finset.mem_singleton]; omega
    simp [this]

theorem toPoly_mod512 : toPoly mod512 = polyP := by
  rw [toPoly_of_bits _ _ mod512_bits]
  unfold polyP
  simp [add_assoc]

theorem toPoly_fb256 : toPoly fb256 = X ^ 32 + X ^ 8 + X ^ 4 + X := by
  rw [toPoly_of_bits _ _ fb256_bits]
  simp [add_assoc]

theorem mod512_bit_of_ge {i : Nat} (h : 256 ≤ i) : mod512.getLsbD i = false := by
  rw [mod512_bits]
  simp only [Finset.mem_insert, Finset.mem_singleton, decide_eq_false_iff_not]
  omega

theorem toPoly_modShifted : toPoly modShifted = X * polyP := by
  rw [modShifted, toPoly_shiftLeft _ _ fun i hi => mod512_bit_of_ge (by omega), toPoly_mod512, pow_one]

theorem tail_degree (n : Nat) (h : 31 < n) :
    ((X : (ZMod 2)[X]) ^ 31 + X ^ 7 + X ^ 3 + 1).degree < ((n : Nat) : WithBot Nat) := by
  refine lt_of_le_of_lt (b := ((31 : Nat) : WithBot Nat)) ?_ (by exact_mod_cast h)
  compute_degree!

theorem pentanomial_monic (n : Nat) (h : 31 < n) : ((X : (ZMod 2)[X]) ^ n + X ^ 31 + X ^ 7 + X ^ 3 + 1).Monic := by
  rw [show (X : (ZMod 2)[X]) ^ n + X ^ 31 + X ^ 7 + X ^ 3 + 1 = X ^ n + (X ^ 31 + X ^ 7 + X ^ 3 + 1) by ring]
  exact monic_X_pow_add (tail_degree n h)

theorem pentanomial_natDegree (n : Nat) (h : 31 < n) : ((X : (ZMod 2)[X]) ^ n + X ^ 31 + X ^ 7 + X ^ 3 + 1).natDegree = n := by
  rw [show (X : (ZMod 2)[X]) ^ n + X ^ 31 + X ^ 7 + X ^ 3 + 1 = X ^ n + (X ^ 31 + X ^ 7 + X ^ 3 + 1) by ring,
    natDegree_add_eq_left_of_degree_lt (by rw [degree_X_pow]; exact tail_degree n h), natDegree_X_pow]

theorem polyP_monic : polyP.Monic := by
  unfold polyP
  exact pentanomial_monic 255 (by norm_num)

theorem polyP_natDegree : polyP.natDegree = 255 := by
  unfold polyP
  exact pentanomial_natDegree 255 (by norm_num)

theorem polyP_degree : polyP.degree = ((255 : Nat) : WithBot Nat) := by
  rw [degree_eq_natDegree polyP_monic.ne_zero, polyP_natDegree]

theorem mulX_polyP_monic : (X * polyP).Monic := monic_X.mul polyP_monic

theorem mulX_polyP_natDegree : (X * polyP).natDegree = 256 := by
  rw [natDegree_X_mul polyP_monic.ne_zero, polyP_natDegree]

theorem mulX_polyP_degree : (X * polyP).degree = ((256 : Nat) : WithBot Nat) := by
  rw [degree_eq_natDegree mulX_polyP_monic.ne_zero, mulX_polyP_natDegree]

/-- x^256 folds back to FB256 at the scale of the shifted form (R24). -/
theorem X_pow_256 : (X : (ZMod 2)[X]) ^ 256 = X * polyP + toPoly fb256 := by
  have h (m n : Nat) (hm : m = n + 1) : (X : (ZMod 2)[X]) ^ m =
      X * (X ^ n + X ^ 31 + X ^ 7 + X ^ 3 + 1) + (X ^ 32 + X ^ 8 + X ^ 4 + X) := by
    subst hm
    linear_combination -poly_add_self (X ^ 32 + X ^ 8 + X ^ 4 + X)
  rw [toPoly_fb256, h 256 255 rfl]
  unfold polyP
  rfl

/-! ### Multiplication -/

theorem clmulLoop_spec (a b : Reg256) (n : Nat) (hn : n ≤ 256) :
    toPoly (clmulLoop a b n) = toPoly a * ∑ i ∈ Finset.range n, if b.getLsbD i then (X : (ZMod 2)[X]) ^ i else 0 := by
  induction n with
  | zero => rw [clmulLoop, Finset.range_zero, Finset.sum_empty, mul_zero]; exact toPoly_zero
  | succ n ih =>
    have hs : toPoly (a.setWidth 512 <<< n) = toPoly a * X ^ n := by
      rw [toPoly_shiftLeft, toPoly_zext a (by omega), mul_comm]
      intro i hi
      rw [BitVec.getLsbD_setWidth, BitVec.getLsbD_of_ge a i (by omega), Bool.and_false]
    rw [Finset.sum_range_succ, mul_add, ← ih (by omega), clmulLoop]
    cases b.getLsbD n
    · simp
    · simp [hs]

/-- CLMUL is the product of polynomials (R58). -/
theorem toPoly_clmul (a b : Reg256) : toPoly (clmul a b) = toPoly a * toPoly b :=
  clmulLoop_spec a b 256 le_rfl

/-! ### Division -/

/-- Long division gives the remainder: the loop keeps the residue and ends below the modulus' degree (R59). -/
theorem remLoop_spec (m : Scratch) (d : Nat) (hm : (toPoly m).Monic) (hd : (toPoly m).natDegree = d) (n : Nat) (r : Scratch)
    (hr : (toPoly r).degree < ((d + n : Nat) : WithBot Nat)) (hn : d + n ≤ 512) :
    toPoly (remLoop m d n r) = toPoly r %ₘ toPoly m := by
  have hdeg : (toPoly m).degree = d := by rw [degree_eq_natDegree hm.ne_zero, hd]
  induction n generalizing r with
  | zero =>
    rw [remLoop, (modByMonic_eq_self_iff hm).2 (by rw [hdeg]; simpa using hr)]
  | succ n ih =>
    have hshift : toPoly (m <<< n) = X ^ n * toPoly m := by
      apply toPoly_shiftLeft
      intro i hi
      exact bit_of_degree_lt m (d := d + 1) (by rw [hdeg]; exact_mod_cast Nat.lt_succ_self d) (by omega)
    rw [remLoop]
    cases hb : r.getLsbD (d + n)
    · simp only [cond_false]
      refine ih r ?_ (by omega)
      rw [degree_lt_iff_coeff_zero] at hr ⊢
      intro i hi
      rcases Nat.eq_or_lt_of_le hi with rfl | hlt
      · rw [toPoly_coeff, hb]; rfl
      · exact hr i (by omega)
    · simp only [cond_true]
      rw [ih _ ?_ (by omega), toPoly_xor, hshift, add_modByMonic, mul_comm, (modByMonic_eq_zero_iff_dvd hm).2 (dvd_mul_right _ _), add_zero]
      rw [toPoly_xor, hshift, degree_lt_iff_coeff_zero]
      intro i hi
      rw [coeff_add, coeff_X_pow_mul', if_pos (by omega)]
      rcases Nat.eq_or_lt_of_le hi with rfl | hlt
      · rw [toPoly_coeff, hb, Nat.add_sub_cancel, ← hd, hm.coeff_natDegree]; decide
      · rw [degree_lt_iff_coeff_zero] at hr
        rw [hr i (by omega), coeff_eq_zero_of_natDegree_lt (by omega), add_zero]

theorem remLoop_bit_of_ge (m : Scratch) (d : Nat) (hm : (toPoly m).Monic) (hd : (toPoly m).natDegree = d) (n : Nat) (r : Scratch)
    (hr : (toPoly r).degree < ((d + n : Nat) : WithBot Nat)) (hn : d + n ≤ 512) {i : Nat} (hi : d ≤ i) : (remLoop m d n r).getLsbD i = false := by
  apply bit_of_degree_lt _ _ hi
  rw [remLoop_spec m d hm hd n r hr hn]
  have := degree_modByMonic_lt (toPoly r) hm
  rwa [degree_eq_natDegree hm.ne_zero, hd] at this

theorem mod512_monic : (toPoly mod512).Monic := toPoly_mod512 ▸ polyP_monic

theorem mod512_natDegree : (toPoly mod512).natDegree = 255 := toPoly_mod512 ▸ polyP_natDegree

theorem scratch_degree (c : Scratch) : (toPoly c).degree < ((255 + 257 : Nat) : WithBot Nat) := toPoly_degree_lt_width c

/-- REDUCE is the remainder modulo P (R59). -/
theorem toPoly_reduce (c : Scratch) : toPoly (reduce c) = toPoly c %ₘ polyP := by
  rw [reduce, toPoly_setWidth_of_bits _ fun i hi =>
      remLoop_bit_of_ge mod512 255 mod512_monic mod512_natDegree 257 c (scratch_degree c) le_rfl hi,
    remLoop_spec mod512 255 mod512_monic mod512_natDegree 257 c (scratch_degree c) le_rfl, toPoly_mod512]

/-- MULMOD is the product modulo P (R60). -/
theorem toPoly_mulmod (a b : Reg256) : toPoly (mulmod a b) = (toPoly a * toPoly b) %ₘ polyP := by
  rw [mulmod, toPoly_reduce, toPoly_clmul]

theorem toPoly_mulElem (a b : Elem) : toPoly (mulElem a b) = (toPoly a * toPoly b) %ₘ polyP := by
  rw [mulElem, toPoly_mulmod, toPoly_zext a (by omega), toPoly_zext b (by omega)]

/-- A field element is its own remainder. -/
theorem elem_mod (a : Elem) : toPoly a %ₘ polyP = toPoly a := by
  rw [modByMonic_eq_self_iff polyP_monic, polyP_degree]
  exact toPoly_degree_lt_width a

/-- A remainder may be taken of a factor before a product. -/
theorem mod_mul_left (p q : (ZMod 2)[X]) : ((p %ₘ polyP) * q) %ₘ polyP = (p * q) %ₘ polyP := by
  conv_rhs => rw [← modByMonic_add_div p polyP, add_mul, add_modByMonic, mul_assoc,
    (modByMonic_eq_zero_iff_dvd polyP_monic).2 (dvd_mul_right _ _), add_zero]

theorem mod_mul_right (p q : (ZMod 2)[X]) : (p * (q %ₘ polyP)) %ₘ polyP = (p * q) %ₘ polyP := by
  rw [mul_comm, mod_mul_left, mul_comm]

/-! ### The shifted form -/

theorem toPoly_shifted (s : Elem) : toPoly (shifted s) = X * toPoly s := by
  rw [shifted, toPoly_shiftLeft, toPoly_zext s (by omega), pow_one]
  intro i hi
  rw [BitVec.getLsbD_setWidth, BitVec.getLsbD_of_ge s i (by omega), Bool.and_false]

@[simp] theorem shifted_bit_zero (s : Elem) : (shifted s).getLsbD 0 = false := by simp [shifted]

@[simp] theorem shifted_getElem_zero (s : Elem) : (shifted s)[0] = false := by
  rw [← BitVec.getLsbD_eq_getElem]; exact shifted_bit_zero s

@[simp] theorem logical_shifted (s : Elem) : logical (shifted s) = s := by
  apply BitVec.eq_of_getLsbD_eq
  intro i hi
  rw [logical, BitVec.getLsbD_extractLsb', shifted, BitVec.getLsbD_shiftLeft, BitVec.getLsbD_setWidth]
  simp [show 1 + i < 256 by omega, show i < 256 by omega, hi]

theorem shifted_logical {S : Reg256} (h : S.getLsbD 0 = false) : shifted (logical S) = S := by
  apply BitVec.eq_of_getLsbD_eq
  intro i hi
  rw [shifted, BitVec.getLsbD_shiftLeft, BitVec.getLsbD_setWidth, logical, BitVec.getLsbD_extractLsb']
  rcases Nat.eq_zero_or_pos i with rfl | hp
  · rw [h]; simp
  · simp [hi, show ¬ i < 1 by omega, show i - 1 < 256 by omega, show i - 1 < 255 by omega, show 1 + (i - 1) = i by omega]

end Sys2Proof
end

