-- ==== Sys2Proof/Laws/JumpAhead.lean ====
section
/-! SUPPORT. What the power table and JUMP compute. -/

namespace Sys2Proof

open Polynomial Machine

/-- Entry i of the power table is x^(2^i) mod P (R64). -/
theorem toPoly_deg2Entry (i : Nat) : toPoly (deg2Entry i) = powX (2 ^ i) := by
  induction i with
  | zero =>
    have h : toPoly (0x2 : Elem) = X := by
      rw [toPoly_of_bits (0x2 : Elem) {1} ?_]
      · simp
      · intro i
        by_cases hi : i < 255
        · have : ∀ i < 255, (0x2 : Elem).getLsbD i = decide (i ∈ ({1} : Finset Nat)) := by decide +kernel
          exact this i hi
        · rw [BitVec.getLsbD_of_ge _ _ (by omega)]
          simp; omega
    rw [deg2Entry, powX, pow_zero, pow_one, ← h, elem_mod]
  | succ i ih =>
    rw [deg2Entry, toPoly_mulElem, ih, powX, mod_mul_left, mod_mul_right, ← pow_add, powX, pow_succ, mul_two]

theorem deg2_of_lt {i : Nat} (h : i < 256) : deg2 (BitVec.ofNat 8 i) = deg2Entry i := by
  rw [deg2, BitVec.toNat_ofNat, Nat.mod_eq_of_lt (by omega)]

/-- One turn of JUMP multiplies by the power of x that the exponent's bit stands for. -/
theorem toPoly_jumpTurn (e base : Nat) (acc : Elem) (i : Nat) (h : i + base < 256) :
    toPoly (jumpTurn e base acc i) = (toPoly acc * X ^ ((e.testBit i).toNat * 2 ^ i * 2 ^ base)) %ₘ polyP := by
  rw [jumpTurn]
  cases e.testBit i
  · simp [elem_mod]
  · rw [cond_true, toPoly_mulElem, deg2_of_lt h, toPoly_deg2Entry, powX, mod_mul_right, Bool.toNat_true, one_mul, ← pow_add]

theorem testBit_step (e n : Nat) : e % 2 ^ (n + 1) = e % 2 ^ n + (e.testBit n).toNat * 2 ^ n := by
  rw [Nat.mod_pow_succ, Nat.testBit_eq_decide_div_mod_eq, mul_comm]
  rcases Nat.mod_two_eq_zero_or_one (e / 2 ^ n) with h | h <;> simp [h]

/-- JUMP multiplies by x to the power e·2^base, e read through its low n bits (R66). -/
theorem toPoly_jump (s : Elem) (e n base : Nat) (h : n + base ≤ 256) :
    toPoly (jump s e n base) = (toPoly s * X ^ (e % 2 ^ n * 2 ^ base)) %ₘ polyP := by
  induction n with
  | zero => simp [jump, elem_mod, Nat.mod_one]
  | succ n ih =>
    have hj : jump s e (n + 1) base = jumpTurn e base (jump s e n base) n := by
      rw [jump, List.range_succ, List.foldl_append, jump]; rfl
    rw [hj, toPoly_jumpTurn _ _ _ _ (by omega), ih (by omega), mod_mul_left, mul_assoc, ← pow_add, ← add_mul, ← testBit_step]

theorem isCoprime_X_pentanomial (n m : Nat) (hm : m = n + 1) :
    IsCoprime (X : (ZMod 2)[X]) (X ^ m + X ^ 31 + X ^ 7 + X ^ 3 + 1) := by
  subst hm
  refine ⟨X ^ n + X ^ 30 + X ^ 6 + X ^ 2, 1, ?_⟩
  linear_combination poly_add_self ((X : (ZMod 2)[X]) ^ (n + 1) + X ^ 31 + X ^ 7 + X ^ 3)

/-- x is invertible modulo P, its inverse being x^254 + x^30 + x^6 + x^2 (R17, R60). -/
theorem isCoprime_X_polyP : IsCoprime (X : (ZMod 2)[X]) polyP := by
  unfold polyP
  exact isCoprime_X_pentanomial 254 255 rfl

/-- Nothing nonzero modulo P becomes zero by a power of x. -/
theorem mul_pow_mod_ne_zero {p : (ZMod 2)[X]} (hp : p %ₘ polyP ≠ 0) (k : Nat) : (p * X ^ k) %ₘ polyP ≠ 0 := by
  intro h
  apply hp
  rw [modByMonic_eq_zero_iff_dvd polyP_monic] at h ⊢
  exact (isCoprime_X_polyP.symm.pow_right).dvd_of_dvd_mul_right h

/-- JUMP keeps a logical state nonzero (R17). -/
theorem jump_ne_zero {s : Elem} (hs : s ≠ 0) (e n base : Nat) (h : n + base ≤ 256) : jump s e n base ≠ 0 := by
  intro h0
  have := toPoly_jump s e n base h
  rw [h0, toPoly_zero] at this
  exact mul_pow_mod_ne_zero (by rw [elem_mod]; exact toPoly_ne_zero hs) _ this.symm

theorem toPoly_one_elem : toPoly (1 : Elem) = 1 := by
  rw [toPoly_of_bits (1 : Elem) {0} ?_]
  · simp
  · intro i
    rcases Nat.eq_zero_or_pos i with rfl | hp
    · decide
    · by_cases hi : i < 255
      · have : ∀ i < 255, (1 : Elem).getLsbD i = decide (i ∈ ({0} : Finset Nat)) := by decide +kernel
        exact this i hi
      · rw [BitVec.getLsbD_of_ge _ _ (by omega)]
        simp; omega

theorem argW_le (b : Build) : b.argW ≤ 224 := by have := b.argLess1.isLt; unfold Build.argW; omega

/-- Seeding with v gives x^(SEP_OFFSET + v·2^32) mod P (R76). -/
theorem toPoly_seedState (b : Build) (v : Nat) :
    toPoly (seedState b v) = powX (b.sepOffset.toNat + v % 2 ^ b.argW * 2 ^ 32) := by
  have := argW_le b
  rw [seedState, toPoly_jump _ _ _ _ (by omega), toPoly_jump _ _ _ _ (by omega), mod_mul_left, toPoly_one_elem, one_mul,
    ← pow_add, pow_zero, mul_one, Nat.mod_eq_of_lt b.sepOffset.isLt, powX]

theorem seedState_ne_zero (b : Build) (v : Nat) : seedState b v ≠ 0 := by
  have := argW_le b
  exact jump_ne_zero (jump_ne_zero (by decide) _ _ _ (by omega)) _ _ _ (by omega)

/-- The default seed is an ARG_W-bit value (R7). -/
theorem defaultSeed_lt (b : Build) : b.defaultSeed < 2 ^ b.argW := Nat.mod_lt _ (by positivity)

/-- JUMP is the product of the entries it reads (R69). -/
theorem jump_eq_foldl_reads (s : Elem) (e n base : Nat) :
    jump s e n base = (jumpReads e n base).foldl (fun acc i => mulElem acc (deg2 (BitVec.ofNat 8 i))) s := by
  rw [jump, jumpReads, List.foldl_map, List.foldl_filter]
  congr 1
  funext acc i
  rw [jumpTurn]
  cases e.testBit i <;> rfl

end Sys2Proof
end

