-- ==== Sys2Proof/Laws/WordTable.lean ====
section
/-! SUPPORT. The word register as a packed value, and what TROM computes. -/

namespace Sys2Proof

open Polynomial Machine

theorem append_bit {n : Nat} (x : BitVec n) (y : Word16) (i : Nat) :
    (x ++ y).getLsbD i = if i < 16 then y.getLsbD i else x.getLsbD (i - 16) := by
  rw [BitVec.getLsbD_append]

set_option maxRecDepth 4000 in
/-- Bit 16·q + r of the packed value is bit r of word 15 - q (R19, R37). -/
theorem pack_word_bit (w : WordFile) (q r : Nat) (hq : q < 16) (hr : r < 16) :
    (pack w).getLsbD (16 * q + r) = (w[15 - q]'(by omega)).getLsbD r := by
  unfold pack
  interval_cases q
  all_goals repeat (refine (append_bit _ _ _).trans ?_; rw [if_neg (by omega)])
  all_goals try (refine (append_bit _ _ _).trans ?_; rw [if_pos (by omega)])
  all_goals exact congrArg (BitVec.getLsbD _) (by omega)

/-- Bit i of the packed value is bit i mod 16 of word 15 - i/16 (R19, R37). -/
theorem pack_bit (w : WordFile) (i : Nat) (h : i < 256) :
    (pack w).getLsbD i = (w[15 - i / 16]'(by omega)).getLsbD (i % 16) := by
  have := pack_word_bit w (i / 16) (i % 16) (by omega) (by omega)
  rwa [Nat.div_add_mod] at this

theorem unpack_get (r : Reg256) (k : Nat) (h : k < 16) : (unpack r)[k] = r.extractLsb' (240 - 16 * k) 16 := by
  rw [unpack, Vector.getElem_ofFn]

@[simp] theorem pack_unpack (r : Reg256) : pack (unpack r) = r := by
  apply BitVec.eq_of_getLsbD_eq
  intro i hi
  rw [pack_bit _ _ hi, unpack_get, BitVec.getLsbD_extractLsb']
  simp only [show i % 16 < 16 by omega, decide_true, Bool.true_and]
  congr 1
  omega

@[simp] theorem unpack_pack (w : WordFile) : unpack (pack w) = w := by
  apply Vector.ext
  intro k hk
  rw [unpack_get]
  apply BitVec.eq_of_getLsbD_eq
  intro r hr
  rw [BitVec.getLsbD_extractLsb', show 240 - 16 * k + r = 16 * (15 - k) + r by omega, pack_word_bit _ _ _ (by omega) hr]
  simp only [hr, decide_true, Bool.true_and, show 15 - (15 - k) = k by omega]

theorem modShifted_monic : (toPoly modShifted).Monic := toPoly_modShifted ▸ mulX_polyP_monic

theorem modShifted_natDegree : (toPoly modShifted).natDegree = 256 := toPoly_modShifted ▸ mulX_polyP_natDegree

/-- Modulo x·P, x^256 may be replaced by FB256. -/
theorem fold_back (p : (ZMod 2)[X]) : (p * X ^ 256) %ₘ (X * polyP) = (p * toPoly fb256) %ₘ (X * polyP) := by
  rw [X_pow_256, mul_add, add_modByMonic,
    (modByMonic_eq_zero_iff_dvd mulX_polyP_monic).2 (dvd_mul_left _ _), zero_add]

theorem fb256_natDegree_le : (toPoly fb256).natDegree ≤ 32 := by
  rw [toPoly_fb256]; compute_degree

/-- TROM[v] is v·FB256, which needs no reduction (R70, R71). -/
theorem toPoly_trom (v : Word16) : toPoly (trom v) = toPoly v * toPoly fb256 := by
  have hv : (toPoly v).natDegree ≤ 15 := natDegree_le_of_degree_le <|
    degree_le_iff_coeff_zero _ _ |>.2 fun m hm => by
      have hm' : 15 < m := by exact_mod_cast hm
      rw [toPoly_coeff, BitVec.getLsbD_of_ge v m (by omega)]; simp
  have hdeg : (toPoly v * toPoly fb256).natDegree ≤ 47 :=
    natDegree_mul_le.trans (Nat.add_le_add hv fb256_natDegree_le)
  have hlt (d : Nat) (hd : 47 < d) : (toPoly v * toPoly fb256).degree < ((d : Nat) : WithBot Nat) :=
    lt_of_le_of_lt degree_le_natDegree (by exact_mod_cast lt_of_le_of_lt hdeg hd)
  have hs : toPoly (v.setWidth 512 <<< 256) = toPoly v * X ^ 256 := by
    rw [toPoly_shiftLeft, toPoly_zext v (by omega), mul_comm]
    intro i hi
    rw [BitVec.getLsbD_setWidth, BitVec.getLsbD_of_ge v i (by omega), Bool.and_false]
  have hr : (toPoly (v.setWidth 512 <<< 256)).degree < ((256 + 16 : Nat) : WithBot Nat) := by
    apply toPoly_degree_lt
    intro i hi
    rw [BitVec.getLsbD_shiftLeft, BitVec.getLsbD_setWidth, BitVec.getLsbD_of_ge v (i - 256) (by omega)]
    simp
  have hrem : toPoly (remLoop modShifted 256 16 (v.setWidth 512 <<< 256)) = toPoly v * toPoly fb256 := by
    rw [remLoop_spec _ _ modShifted_monic modShifted_natDegree _ _ hr (by omega), hs, toPoly_modShifted, fold_back,
      (modByMonic_eq_self_iff mulX_polyP_monic).2 (by rw [mulX_polyP_degree]; exact hlt 256 (by omega))]
  rw [trom, toPoly_setWidth_of_bits, hrem]
  intro i hi
  exact bit_of_degree_lt _ (d := 48) (by rw [hrem]; exact hlt 48 (by omega)) hi

/-- XSS multiplies a register by x modulo x·P (R61). -/
theorem toPoly_xss (S : Reg256) : toPoly (xss S) = (X * toPoly S) %ₘ (X * polyP) := by
  have hlt (T : Reg256) : (toPoly T) %ₘ (X * polyP) = toPoly T := by
    rw [modByMonic_eq_self_iff mulX_polyP_monic, mulX_polyP_degree]
    exact toPoly_degree_lt_width T
  have hshift : X ^ 1 * toPoly S = toPoly (S <<< 1) + (if S.getLsbD 255 then X ^ 256 else 0) := by
    ext i
    rw [coeff_X_pow_mul', coeff_add, toPoly_coeff, toPoly_coeff, BitVec.getLsbD_shiftLeft]
    rcases Nat.eq_zero_or_pos i with rfl | hp
    · cases S.getLsbD 255 <;> simp [coeff_X_pow]
    · rw [if_pos (by omega)]
      by_cases hi : i < 256
      · cases S.getLsbD 255 <;> simp [coeff_X_pow, hi, show i ≠ 256 by omega, show i ≠ 0 by omega]
      · by_cases h6 : i = 256
        · subst h6
          cases S.getLsbD 255 <;> simp [coeff_X_pow]
        · rw [BitVec.getLsbD_of_ge S (i - 1) (by omega)]
          cases S.getLsbD 255 <;> simp [coeff_X_pow, hi, h6]
  have hf : (X : (ZMod 2)[X]) ^ 256 %ₘ (X * polyP) = toPoly fb256 := by
    have := fold_back 1
    simpa only [one_mul, hlt] using this
  rw [← pow_one X, hshift, add_modByMonic, pow_one, hlt, xss]
  cases S.getLsbD 255
  · simp
  · simp only [if_true, cond_true, hf, toPoly_xor]

end Sys2Proof
end

