-- ==== Sys2Proof/Laws/Generation.lean ====
section
/-! SUPPORT. What one NEXT_BS, one NEXT_WV and one DISCARD do to a register, in closed form. -/

namespace Sys2Proof

open Polynomial Machine

/-- Word q of a packed 48-bit entry, placed at the bottom, is that word of the entry for q below 3. -/
theorem entry_bit (t : Entry48) (q r : Nat) (hr : r < 16) : (entryWord t q).getLsbD r = t.getLsbD (16 * q + r) := by
  rw [entryWord, BitVec.getLsbD_extractLsb']
  simp [hr]

theorem entryWord_of_ge (t : Entry48) (q : Nat) (h : 3 ≤ q) : entryWord t q = 0 := by
  apply BitVec.eq_of_getLsbD_eq
  intro r hr
  rw [entry_bit _ _ _ hr, BitVec.getLsbD_of_ge t _ (by omega)]
  exact BitVec.getLsbD_zero.symm

/-- NEXT_WV in packed form: a 32-bit shift and the two table entries (R74, R79). -/
theorem pack_advanceWords (w : WordFile) :
    pack (advanceWords w) = (pack w <<< 32) ^^^ (trom w[1]).setWidth 256 ^^^ ((trom w[0]).setWidth 256 <<< 16) := by
  apply BitVec.eq_of_getLsbD_eq
  intro i hi
  obtain ⟨q, r, hq, hr, rfl⟩ : ∃ q r, q < 16 ∧ r < 16 ∧ i = 16 * q + r :=
    ⟨i / 16, i % 16, by omega, by omega, by omega⟩
  rw [pack_word_bit _ _ _ hq hr]
  unfold advanceWords
  generalize trom w[1] = t1
  generalize trom w[0] = t0
  simp only [BitVec.getLsbD_xor, BitVec.getLsbD_shiftLeft, BitVec.getLsbD_setWidth, hi, decide_true, Bool.true_and,
    show 16 * q + r - 16 < 256 by omega]
  rw [← entry_bit t1 q r hr]
  rcases Nat.lt_or_ge q 2 with h2 | h2
  · rw [show decide (16 * q + r < 32) = true by simp; omega]
    interval_cases q
    · rw [show decide (16 * 0 + r < 16) = true by simp; omega]
      simp [correct, slide]
    · rw [show decide (16 * 1 + r < 16) = false by simp, show 16 * 1 + r - 16 = 16 * 0 + r by omega, ← entry_bit t0 0 r hr]
      simp [correct, slide]
  · rw [show decide (16 * q + r < 32) = false by simp; omega, show decide (16 * q + r < 16) = false by simp; omega,
      show 16 * q + r - 16 = 16 * (q - 1) + r by omega, ← entry_bit t0 (q - 1) r hr,
      show 16 * q + r - 32 = 16 * (q - 2) + r by omega, pack_word_bit _ _ _ (by omega) hr]
    interval_cases q <;> simp [correct, slide, entryWord_of_ge]

/-- NEXT_WV takes the top 32 bits of the packed value (R36, R79). -/
theorem topWords_eq (w : WordFile) : topWords w = (pack w).extractLsb' 224 32 := by
  apply BitVec.eq_of_getLsbD_eq
  intro i hi
  rw [topWords, append_bit, BitVec.getLsbD_extractLsb']
  simp only [hi, decide_true, Bool.true_and]
  split
  · rw [show 224 + i = 16 * 14 + i by omega, pack_word_bit _ _ _ (by omega) (by omega)]
  · rw [show 224 + i = 16 * 15 + (i - 16) by omega, pack_word_bit _ _ _ (by omega) (by omega)]

theorem reg_mod (S : Reg256) : toPoly S %ₘ (X * polyP) = toPoly S := by
  rw [modByMonic_eq_self_iff mulX_polyP_monic, mulX_polyP_degree]
  exact toPoly_degree_lt_width S

/-- A 32-bit advance splits into the bits that stay and the bits that leave the top. -/
theorem shift32_split (S : Reg256) :
    X ^ 32 * toPoly S = toPoly (S <<< 32) + toPoly (S.extractLsb' 224 32) * X ^ 256 := by
  ext i
  rw [coeff_add, coeff_X_pow_mul', coeff_mul_X_pow', toPoly_coeff, toPoly_coeff, toPoly_coeff, BitVec.getLsbD_shiftLeft,
    BitVec.getLsbD_extractLsb']
  by_cases h1 : i < 32
  · rw [if_neg (show ¬ 32 ≤ i by omega), if_neg (show ¬ 256 ≤ i by omega)]
    simp [h1]
  · rw [if_pos (show 32 ≤ i by omega)]
    by_cases h2 : i < 256
    · rw [if_neg (show ¬ 256 ≤ i by omega)]
      simp [h1, h2]
    · rw [if_pos (show 256 ≤ i by omega)]
      by_cases h3 : i < 288
      · simp [h2, show i - 256 < 32 by omega, show 224 + (i - 256) = i - 32 by omega]
      · rw [BitVec.getLsbD_of_ge S (i - 32) (by omega)]
        simp [h2, show ¬ i - 256 < 32 by omega]

theorem toPoly_append16 (x y : Word16) : toPoly (x ++ y) = X ^ 16 * toPoly x + toPoly y := by
  ext i
  rw [coeff_add, coeff_X_pow_mul', toPoly_coeff, toPoly_coeff, toPoly_coeff, append_bit]
  by_cases h : i < 16
  · rw [if_pos h, if_neg (show ¬ 16 ≤ i by omega), zero_add]
  · rw [if_neg h, if_pos (show 16 ≤ i by omega), BitVec.getLsbD_of_ge y i (by omega)]
    simp

/-- The packed word register after NEXT_WV is x^32 times what it was, modulo x·P (R79). -/
theorem toPoly_pack_advanceWords (w : WordFile) :
    toPoly (pack (advanceWords w)) = (X ^ 32 * toPoly (pack w)) %ₘ (X * polyP) := by
  have htop : (pack w).extractLsb' 224 32 = w[0] ++ w[1] := (topWords_eq w).symm
  have h1 : toPoly ((trom w[1]).setWidth 256) = toPoly w[1] * toPoly fb256 := by
    rw [toPoly_zext _ (by omega), toPoly_trom]
  have h0 : toPoly ((trom w[0]).setWidth 256 <<< 16) = X ^ 16 * toPoly w[0] * toPoly fb256 := by
    rw [toPoly_shiftLeft, toPoly_zext _ (by omega), toPoly_trom, mul_assoc]
    intro i hi
    rw [BitVec.getLsbD_setWidth, BitVec.getLsbD_of_ge (trom w[0]) i (by omega), Bool.and_false]
  rw [← reg_mod (pack (advanceWords w)), shift32_split, add_modByMonic, fold_back, ← add_modByMonic, pack_advanceWords,
    toPoly_xor, toPoly_xor, h1, h0, htop, toPoly_append16, add_mul, add_assoc, add_comm (toPoly w[1] * _)]

/-! ### NEXT_BS -/

theorem nextBsLoop_fst (n : Nat) (S : Reg256) (out : Out32) : (nextBsLoop n S out).1 = xss^[n] S := by
  induction n generalizing S out with
  | zero => rfl
  | succ n ih => rw [nextBsLoop, ih, Function.iterate_succ_apply]

/-- NEXT_BS applies XSS 32 times (R61, R78). -/
theorem nextBs_fst (S : Reg256) : (nextBs S).1 = xss^[32] S := nextBsLoop_fst 32 S 0

theorem mod_shifted_mul_right (p q : (ZMod 2)[X]) : (p * (q %ₘ (X * polyP))) %ₘ (X * polyP) = (p * q) %ₘ (X * polyP) := by
  conv_rhs => rw [← modByMonic_add_div q (X * polyP), mul_add, add_modByMonic, mul_left_comm,
    (modByMonic_eq_zero_iff_dvd mulX_polyP_monic).2 (dvd_mul_right _ _), add_zero]

/-- n bit-serial steps multiply a register by x^n modulo x·P (R61). -/
theorem toPoly_xss_iterate (n : Nat) (S : Reg256) : toPoly (xss^[n] S) = (X ^ n * toPoly S) %ₘ (X * polyP) := by
  induction n with
  | zero => rw [Function.iterate_zero_apply, pow_zero, one_mul, reg_mod]
  | succ n ih => rw [Function.iterate_succ_apply', toPoly_xss, ih, mod_shifted_mul_right, ← mul_assoc, ← pow_succ']

/-- Above the feedback mask a bit-serial step only shifts (R78). -/
theorem xss_high_bit (S : Reg256) (i : Nat) (h : 33 ≤ i) (hi : i < 256) : (xss S).getLsbD i = S.getLsbD (i - 1) := by
  have hf : fb256.getLsbD i = false := by
    rw [fb256_bits]
    simp only [Finset.mem_insert, Finset.mem_singleton, decide_eq_false_iff_not]
    omega
  rw [xss]
  cases S.getLsbD 255 <;>
    simp only [cond_true, cond_false, BitVec.getLsbD_xor, BitVec.getLsbD_shiftLeft, hf, hi, show ¬ i < 1 by omega,
      decide_true, decide_false, Bool.true_and, Bool.not_false, Bool.xor_false]

/-- None of the 32 bits that leave the top is a feedback bit (R78). -/
theorem xss_iterate_top (S : Reg256) (n i : Nat) (h : 32 + n ≤ i) (hi : i < 256) : (xss^[n] S).getLsbD i = S.getLsbD (i - n) := by
  induction n generalizing i with
  | zero => rfl
  | succ n ih =>
    rw [Function.iterate_succ_apply', xss_high_bit _ _ (by omega) hi, ih _ (by omega) (by omega)]
    congr 1
    omega

/-- The output of NEXT_BS after n turns: the n top bits of the register have entered from below (R78). -/
theorem nextBsLoop_snd_bit (S : Reg256) (n m i : Nat) (out : Out32) (hm : m + n ≤ 32) (hi : i < 32) :
    (nextBsLoop n (xss^[m] S) out).2.getLsbD i =
      if i < n then S.getLsbD (256 - m - n + i) else out.getLsbD (i - n) := by
  induction n generalizing m out with
  | zero => rfl
  | succ n ih =>
    rw [nextBsLoop, ← Function.iterate_succ_apply' xss m S, ih (m + 1) _ (by omega)]
    by_cases h : i < n
    · rw [if_pos h, if_pos (by omega)]
      congr 1
      omega
    · rw [if_neg h, BitVec.getLsbD_or, BitVec.getLsbD_shiftLeft, BitVec.getLsbD_setWidth,
        xss_iterate_top S m 255 (by omega) (by omega)]
      by_cases hn : i = n
      · subst hn
        rw [if_pos (by omega)]
        simp [show 256 - m - (i + 1) + i = 255 - m by omega]
      · rw [if_neg (by omega)]
        simp [show i - n < 32 by omega, show i - n ≠ 0 by omega, show i - n - 1 = i - (n + 1) by omega,
          BitVec.getLsbD_ofBool]

/-- NEXT_BS returns BREG[255:224] as it was (R78). -/
theorem nextBs_snd (S : Reg256) : (nextBs S).2 = S.extractLsb' 224 32 := by
  apply BitVec.eq_of_getLsbD_eq
  intro i hi
  have := nextBsLoop_snd_bit S 32 0 i 0 (by omega) hi
  rw [Function.iterate_zero_apply] at this
  rw [nextBs, this, if_pos hi, BitVec.getLsbD_extractLsb']
  simp [hi]

/-! ### The logical state behind a register -/

theorem toPoly_of_bit_zero {S : Reg256} (h : S.getLsbD 0 = false) : toPoly S = X * toPoly (logical S) := by
  rw [← toPoly_shifted, shifted_logical h]

theorem mulX_mod (p : (ZMod 2)[X]) : (X * p) %ₘ (X * polyP) = X * (p %ₘ polyP) := by
  have h : (X * (p %ₘ polyP)).degree < (X * polyP).degree := by
    rw [degree_mul, degree_mul]
    exact WithBot.add_lt_add_left (by simp) (degree_modByMonic_lt p polyP_monic)
  conv_lhs => rw [← modByMonic_add_div p polyP, mul_add, add_modByMonic, ← mul_assoc,
    (modByMonic_eq_zero_iff_dvd mulX_polyP_monic).2 (dvd_mul_right _ _), add_zero,
    (modByMonic_eq_self_iff mulX_polyP_monic).2 h]

/-- A register multiplied by x^n modulo x·P has its logical state multiplied by x^n modulo P (R17, R61). -/
theorem logical_of_mul {S T : Reg256} (n : Nat) (h : S.getLsbD 0 = false)
    (hT : toPoly T = (X ^ n * toPoly S) %ₘ (X * polyP)) :
    T.getLsbD 0 = false ∧ toPoly (logical T) = (X ^ n * toPoly (logical S)) %ₘ polyP := by
  rw [toPoly_of_bit_zero h, mul_left_comm, mulX_mod] at hT
  have h0 : T.getLsbD 0 = false := by
    have := congrArg (fun p => Polynomial.coeff p 0) hT
    simp only [toPoly_coeff, mul_coeff_zero, coeff_X_zero, zero_mul] at this
    cases hb : T.getLsbD 0 <;> simp [hb] at this ⊢
  refine ⟨h0, ?_⟩
  rw [toPoly_of_bit_zero h0] at hT
  exact mul_left_cancel₀ X_ne_zero hT

theorem logical_ne_zero_of_mul {S T : Reg256} (n : Nat) (h : S.getLsbD 0 = false) (hS : logical S ≠ 0)
    (hT : toPoly T = (X ^ n * toPoly S) %ₘ (X * polyP)) : logical T ≠ 0 := by
  intro h0
  have := (logical_of_mul n h hT).2
  rw [h0, toPoly_zero, mul_comm] at this
  exact mul_pow_mod_ne_zero (by rw [elem_mod]; exact toPoly_ne_zero hS) n this.symm

/-- At a bit of a register, the feedback mask is the modulus one bit lower (R24). -/
theorem fb256_bit_eq_mod512 (i : Nat) (h : 0 < i) (hi : i < 256) : fb256.getLsbD i = mod512.getLsbD (i - 1) := by
  have : ∀ i < 256, 0 < i → fb256.getLsbD i = mod512.getLsbD (i - 1) := by decide +kernel
  exact this i hi h

/-- A bit-serial step leaves bit 0 clear (R61). -/
theorem xss_bit_zero (S : Reg256) : (xss S).getLsbD 0 = false := by
  have hf : fb256.getLsbD 0 = false := by decide
  rw [xss]
  cases S.getLsbD 255 <;> simp only [cond_true, cond_false, BitVec.getLsbD_xor, BitVec.getLsbD_shiftLeft, hf] <;> rfl

/-- XS and XSS agree: XSS is XS seen through the shifted form (R61). -/
theorem shifted_xs (s : Elem) : shifted (xs s) = xss (shifted s) := by
  apply BitVec.eq_of_getLsbD_eq
  intro i hi
  rcases Nat.eq_zero_or_pos i with rfl | hp
  · rw [shifted_bit_zero, xss_bit_zero]
  rw [show xs s = (bif (shifted s).getLsbD 255 then shifted s ^^^ mod512.setWidth 256 else shifted s).setWidth 255 from rfl,
    xss]
  rw [shifted, BitVec.getLsbD_shiftLeft, BitVec.getLsbD_setWidth, BitVec.getLsbD_setWidth]
  cases (shifted s).getLsbD 255 <;>
    simp only [cond_true, cond_false, BitVec.getLsbD_xor, BitVec.getLsbD_shiftLeft, BitVec.getLsbD_setWidth, hi,
      show ¬ i < 1 by omega, show i - 1 < 256 by omega, show i - 1 < 255 by omega, decide_true, decide_false,
      Bool.true_and, Bool.not_false, fb256_bit_eq_mod512 i hp hi]

/-- XS multiplies a logical state by x modulo P (R61). -/
theorem toPoly_xs (s : Elem) : toPoly (xs s) = (X * toPoly s) %ₘ polyP := by
  apply mul_left_cancel₀ (X_ne_zero (R := ZMod 2))
  rw [← toPoly_shifted, shifted_xs, toPoly_xss, toPoly_shifted, mulX_mod]

/-- n canonical steps multiply by x^n modulo P (R61). -/
theorem toPoly_xs_iterate (n : Nat) (s : Elem) : toPoly (xs^[n] s) = (X ^ n * toPoly s) %ₘ polyP := by
  induction n with
  | zero => rw [Function.iterate_zero_apply, pow_zero, one_mul, elem_mod]
  | succ n ih => rw [Function.iterate_succ_apply', toPoly_xs, ih, mod_mul_right, ← mul_assoc, ← pow_succ']

/-! ### DISCARD -/

@[simp] theorem discarded_bit_zero (b : Build) (S : Reg256) (z : Nat) : (discarded b S z).getLsbD 0 = false :=
  shifted_bit_zero _

/-- DISCARD z multiplies the logical state by x^(32·z) modulo P (R80). -/
theorem toPoly_logical_discarded (b : Build) (S : Reg256) (z : Nat) :
    toPoly (logical (discarded b S z)) = (toPoly (logical S) * X ^ (32 * (z % 2 ^ b.argW))) %ₘ polyP := by
  have := argW_le b
  rw [discarded, logical_shifted, toPoly_jump _ _ _ _ (by omega), mul_comm (z % _), show (2 : Nat) ^ 5 = 32 from rfl]

end Sys2Proof
end

