-- ==== Sys2Proof/Laws/PerInstr.lean ====
section
/-! SUPPORT. Facts about every command as syntax, one lemma per constructor. -/

namespace Sys2Proof.Laws.EncodeFits

/-- The word of a command whose argument has ARG_W bits has ARG_W + 4 bits, and its low four bits are the opcode. -/
def Statement (i : Instr) : Prop :=
  ∀ argW : Nat, i.arg < 2 ^ argW → encode i < 2 ^ (argW + 4) ∧ encode i % 16 = i.op.toNat

theorem of_word (i : Instr) : Statement i := fun argW h =>
  ⟨(word_lt_iff argW (encodeCommand i)).2 h, word_mod (encodeCommand i)⟩

theorem seed (v : Nat) : Statement (.seed v) := of_word _
theorem seedDefault (arg : Nat) : Statement (.seedDefault arg) := of_word _
theorem nextBs (arg : Nat) : Statement (.nextBs arg) := of_word _
theorem nextWv (arg : Nat) : Statement (.nextWv arg) := of_word _
theorem discard (z : Nat) : Statement (.discard z) := of_word _
theorem getMin (arg : Nat) : Statement (.getMin arg) := of_word _
theorem getMax (arg : Nat) : Statement (.getMax arg) := of_word _
theorem reservedZero (arg : Nat) : Statement (.reservedZero arg) := of_word _
theorem reservedHigh (low : BitVec 3) (arg : Nat) : Statement (.reservedHigh low arg) := of_word _

end Sys2Proof.Laws.EncodeFits
end

