-- ==== Sys2Proof/Laws/State.lean ====
section
/-! SUPPORT. One lemma for each field under each update of State and each shared operation, true by rfl, so that no
later proof unfolds a record update. -/

namespace Sys2Proof.Machine

variable (s : State)

@[simp] theorem setBreg_build (v : Reg256) : (s.setBreg v).build = s.build := rfl
@[simp] theorem setBreg_breg (v : Reg256) : (s.setBreg v).breg = v := rfl
@[simp] theorem setBreg_wreg (v : Reg256) : (s.setBreg v).wreg = s.wreg := rfl
@[simp] theorem setBreg_out (v : Reg256) : (s.setBreg v).out = s.out := rfl
@[simp] theorem setBreg_seq (v : Reg256) : (s.setBreg v).seq = s.seq := rfl
@[simp] theorem setBreg_inputs (v : Reg256) : (s.setBreg v).inputs = s.inputs := rfl
@[simp] theorem setBreg_draws (v : Reg256) : (s.setBreg v).draws = s.draws := rfl

@[simp] theorem setWreg_build (w : WordFile) : (s.setWreg w).build = s.build := rfl
@[simp] theorem setWreg_breg (w : WordFile) : (s.setWreg w).breg = s.breg := rfl
@[simp] theorem setWreg_wreg (w : WordFile) : (s.setWreg w).wreg = w := rfl
@[simp] theorem setWreg_out (w : WordFile) : (s.setWreg w).out = s.out := rfl
@[simp] theorem setWreg_seq (w : WordFile) : (s.setWreg w).seq = s.seq := rfl
@[simp] theorem setWreg_inputs (w : WordFile) : (s.setWreg w).inputs = s.inputs := rfl
@[simp] theorem setWreg_draws (w : WordFile) : (s.setWreg w).draws = s.draws := rfl

@[simp] theorem setOut_build (v : Out32) : (s.setOut v).build = s.build := rfl
@[simp] theorem setOut_breg (v : Out32) : (s.setOut v).breg = s.breg := rfl
@[simp] theorem setOut_wreg (v : Out32) : (s.setOut v).wreg = s.wreg := rfl
@[simp] theorem setOut_out (v : Out32) : (s.setOut v).out = v := rfl
@[simp] theorem setOut_seq (v : Out32) : (s.setOut v).seq = s.seq := rfl
@[simp] theorem setOut_inputs (v : Out32) : (s.setOut v).inputs = s.inputs := rfl
@[simp] theorem setOut_draws (v : Out32) : (s.setOut v).draws = s.draws := rfl

@[simp] theorem setSeq_build (q : Sequencer) : (s.setSeq q).build = s.build := rfl
@[simp] theorem setSeq_breg (q : Sequencer) : (s.setSeq q).breg = s.breg := rfl
@[simp] theorem setSeq_wreg (q : Sequencer) : (s.setSeq q).wreg = s.wreg := rfl
@[simp] theorem setSeq_out (q : Sequencer) : (s.setSeq q).out = s.out := rfl
@[simp] theorem setSeq_seq (q : Sequencer) : (s.setSeq q).seq = q := rfl
@[simp] theorem setSeq_inputs (q : Sequencer) : (s.setSeq q).inputs = s.inputs := rfl
@[simp] theorem setSeq_draws (q : Sequencer) : (s.setSeq q).draws = s.draws := rfl

@[simp] theorem respond_build (st : BitVec 2) (d : Out32) : (s.respond st d).build = s.build := rfl
@[simp] theorem respond_breg (st : BitVec 2) (d : Out32) : (s.respond st d).breg = s.breg := rfl
@[simp] theorem respond_wreg (st : BitVec 2) (d : Out32) : (s.respond st d).wreg = s.wreg := rfl
@[simp] theorem respond_out (st : BitVec 2) (d : Out32) : (s.respond st d).out = s.out := rfl
@[simp] theorem respond_seq (st : BitVec 2) (d : Out32) : (s.respond st d).seq = .resp ⟨st, d⟩ := rfl
@[simp] theorem respond_inputs (st : BitVec 2) (d : Out32) : (s.respond st d).inputs = s.inputs := rfl
@[simp] theorem respond_draws (st : BitVec 2) (d : Out32) : (s.respond st d).draws = s.draws := rfl

@[simp] theorem loadBoth_build (r : Elem) : (s.loadBoth r).build = s.build := rfl
@[simp] theorem loadBoth_breg (r : Elem) : (s.loadBoth r).breg = shifted r := rfl
@[simp] theorem loadBoth_wreg (r : Elem) : (s.loadBoth r).wreg = unpack (shifted r) := rfl
@[simp] theorem loadBoth_out (r : Elem) : (s.loadBoth r).out = s.out := rfl
@[simp] theorem loadBoth_seq (r : Elem) : (s.loadBoth r).seq = s.seq := rfl
@[simp] theorem loadBoth_inputs (r : Elem) : (s.loadBoth r).inputs = s.inputs := rfl
@[simp] theorem loadBoth_draws (r : Elem) : (s.loadBoth r).draws = s.draws := rfl

@[simp] theorem seedRegisters_build (v : Nat) : (s.seedRegisters v).build = s.build := rfl
@[simp] theorem seedRegisters_breg (v : Nat) : (s.seedRegisters v).breg = shifted (seedState s.build v) := rfl
@[simp] theorem seedRegisters_wreg (v : Nat) : (s.seedRegisters v).wreg = unpack (shifted (seedState s.build v)) := rfl
@[simp] theorem seedRegisters_out (v : Nat) : (s.seedRegisters v).out = s.out := rfl
@[simp] theorem seedRegisters_seq (v : Nat) : (s.seedRegisters v).seq = s.seq := rfl
@[simp] theorem seedRegisters_inputs (v : Nat) : (s.seedRegisters v).inputs = s.inputs := rfl
@[simp] theorem seedRegisters_draws (v : Nat) : (s.seedRegisters v).draws = s.draws := rfl

@[simp] theorem illegal_build : s.illegal.build = s.build := rfl
@[simp] theorem illegal_breg : s.illegal.breg = s.breg := rfl
@[simp] theorem illegal_wreg : s.illegal.wreg = s.wreg := rfl
@[simp] theorem illegal_out : s.illegal.out = s.out := rfl
@[simp] theorem illegal_seq : s.illegal.seq = .resp ⟨statusIllegalOp, 0⟩ := rfl
@[simp] theorem illegal_inputs : s.illegal.inputs = s.inputs := rfl
@[simp] theorem illegal_draws : s.illegal.draws = s.draws := rfl

@[simp] theorem scramble_build : s.scramble.build = s.build := rfl
@[simp] theorem scramble_breg : s.scramble.breg = Config.freeBreg s.draws := rfl
@[simp] theorem scramble_wreg : s.scramble.wreg = unpack (Config.freeWreg s.draws) := rfl
@[simp] theorem scramble_out : s.scramble.out = Config.freeOut s.draws := rfl
@[simp] theorem scramble_seq : s.scramble.seq = s.seq := rfl
@[simp] theorem scramble_inputs : s.scramble.inputs = s.inputs := rfl
@[simp] theorem scramble_draws : s.scramble.draws = s.draws := rfl

@[simp] theorem tick_build : s.tick.build = s.build := rfl
@[simp] theorem tick_breg : s.tick.breg = s.breg := rfl
@[simp] theorem tick_wreg : s.tick.wreg = s.wreg := rfl
@[simp] theorem tick_out : s.tick.out = s.out := rfl
@[simp] theorem tick_seq : s.tick.seq = s.seq := rfl
@[simp] theorem tick_inputs : s.tick.inputs = s.inputs.tail := rfl
@[simp] theorem tick_draws : s.tick.draws = s.draws + 1 := rfl

@[simp] theorem resetOf_build (b : Build) : (State.resetOf b).build = b := rfl
@[simp] theorem resetOf_seq (b : Build) : (State.resetOf b).seq = .idle := rfl
@[simp] theorem resetOf_breg (b : Build) : (State.resetOf b).breg = shifted (seedState b b.defaultSeed) := rfl
@[simp] theorem resetOf_wreg (b : Build) : (State.resetOf b).wreg = unpack (shifted (seedState b b.defaultSeed)) := rfl
@[simp] theorem resetOf_inputs (b : Build) : (State.resetOf b).inputs = [] := rfl

end Sys2Proof.Machine
end

