-- ==== Sys2Proof/Laws/Step.lean ====
section
/-! SUPPORT. What exec and one step can do, said once. -/

namespace Sys2Proof.Machine

/-! ### The meanings, one equation each -/

theorem exec_seed (v : Nat) (s : State) : exec (.seed v) s = .next ((s.seedRegisters v).respond statusOk 0) := rfl

theorem exec_seedDefault (a : Nat) (s : State) :
    exec (.seedDefault a) s = .next ((s.seedRegisters s.build.defaultSeed).respond statusOk 0) := rfl

theorem exec_nextBs (a : Nat) (s : State) :
    exec (.nextBs a) s =
      .next (((s.setBreg (nextBs s.breg).1).setOut (nextBs s.breg).2).respond statusOk (nextBs s.breg).2) := rfl

theorem exec_nextWv (a : Nat) (s : State) :
    exec (.nextWv a) s =
      .next (((s.setWreg (advanceWords s.wreg)).setOut (topWords s.wreg)).respond statusOk (topWords s.wreg)) := rfl

theorem exec_discard (z : Nat) (s : State) :
    exec (.discard z) s = .next ((s.setBreg (discarded s.build s.breg z)).respond statusOk 0) := rfl

theorem exec_getMin (a : Nat) (s : State) : exec (.getMin a) s = .next (s.respond statusOk minv) := rfl

theorem exec_getMax (a : Nat) (s : State) : exec (.getMax a) s = .next (s.respond statusOk maxv) := rfl

theorem exec_reservedZero (a : Nat) (s : State) : exec (.reservedZero a) s = .next s.illegal := rfl

theorem exec_reservedHigh (low : BitVec 3) (a : Nat) (s : State) : exec (.reservedHigh low a) s = .next s.illegal := rfl

/-- Everything a command's execution can do, in one place: it answers a next state whose registers and response are
a function of the command, the build and the registers, and it touches nothing else. -/
theorem exec_inversion {i : Instr} {s t : State} (h : exec i s = .next t) :
    t.build = s.build ∧ t.inputs = s.inputs ∧ t.draws = s.draws ∧
    ∃ status data, t.seq = .resp ⟨status, data⟩ ∧ (status = statusOk ∨ status = statusIllegalOp ∧ data = 0) := by
  cases i <;> cases h <;>
    first
      | exact ⟨rfl, rfl, rfl, _, _, rfl, .inl rfl⟩
      | exact ⟨rfl, rfl, rfl, _, _, rfl, .inr ⟨rfl, rfl⟩⟩

/-- The registers and the response of an execution depend on the registers and the build alone. -/
theorem outcomeOf_eq_transact (s : State) (c : Command) : s.outcomeOf c = transact s.build s.core c := by
  unfold transact State.outcomeOf
  cases decodeCommand c <;> rfl

/-! ### One edge in each state of the sequencer -/

variable {s : State}

theorem step_reset (hr : s.pins.rst = true) : step s = .next (resetEdge s.tick) := by
  simp [step, State.edge, hr]

theorem step_init (hr : s.pins.rst = false) {left : Nat} (hq : s.seq = .init left) :
    step s = .next (initEdge left s.tick) := by
  simp [step, State.edge, hr, hq]

theorem step_idle (hr : s.pins.rst = false) (hq : s.seq = .idle) : step s = .next (idleEdge s.pins s.tick) := by
  simp [step, State.edge, hr, hq]

theorem step_busy_last (hr : s.pins.rst = false) {c : Command} (hq : s.seq = .busy c 0) :
    step s = exec (decodeCommand c) s.tick := by
  simp [step, State.edge, hr, hq, busyEdge]

theorem step_busy_wait (hr : s.pins.rst = false) {c : Command} {left : Nat} (hq : s.seq = .busy c (left + 1)) :
    step s = .next (s.tick.setSeq (.busy c left)) := by
  simp [step, State.edge, hr, hq, busyEdge]

theorem step_resp (hr : s.pins.rst = false) {r : Response} (hq : s.seq = .resp r) :
    step s = .next (respEdge s.pins s.tick) := by
  simp [step, State.edge, hr, hq]

/-- Everything one step can do: the host resets; or a command's execution ends; or the edge moves the sequencer as
its state says. -/
theorem step_inversion {t : State} (h : step s = .next t) :
    (s.pins.rst = true ∧ t = resetEdge s.tick) ∨
    (s.pins.rst = false ∧ ∃ left, s.seq = .init left ∧ t = initEdge left s.tick) ∨
    (s.pins.rst = false ∧ s.seq = .idle ∧ t = idleEdge s.pins s.tick) ∨
    (s.pins.rst = false ∧ ∃ c, s.seq = .busy c 0 ∧ exec (decodeCommand c) s.tick = .next t) ∨
    (s.pins.rst = false ∧ ∃ c left, s.seq = .busy c (left + 1) ∧ t = s.tick.setSeq (.busy c left)) ∨
    (s.pins.rst = false ∧ ∃ r, s.seq = .resp r ∧ t = respEdge s.pins s.tick) := by
  cases hr : s.pins.rst
  · match hq : s.seq with
    | .init left => rw [step_init hr hq] at h; cases h; simp
    | .idle => rw [step_idle hr hq] at h; cases h; simp
    | .busy c 0 => rw [step_busy_last hr hq] at h; simp [h]
    | .busy c (left + 1) => rw [step_busy_wait hr hq] at h; cases h; simp
    | .resp r => rw [step_resp hr hq] at h; cases h; simp
  · rw [step_reset hr] at h; cases h; simp

/-! ### The edges that move the sequencer -/

theorem idleEdge_core (p : Pins) (s : State) : (idleEdge p s).core = s.core := by
  unfold idleEdge; split <;> rfl

theorem respEdge_core (p : Pins) (s : State) : (respEdge p s).core = s.core := by
  unfold respEdge; split <;> rfl

@[simp] theorem initEdge_build (left : Nat) (s : State) : (initEdge left s).build = s.build := by
  cases left <;> rfl

@[simp] theorem idleEdge_build (p : Pins) (s : State) : (idleEdge p s).build = s.build := by
  unfold idleEdge; split <;> rfl

@[simp] theorem respEdge_build (p : Pins) (s : State) : (respEdge p s).build = s.build := by
  unfold respEdge; split <;> rfl

@[simp] theorem resetEdge_build (s : State) : (resetEdge s).build = s.build := rfl

@[simp] theorem resetEdge_seq (s : State) : (resetEdge s).seq = .init s.build.lat.init := rfl

end Sys2Proof.Machine
end

