-- ==== Sys2Proof/Tests/Slice0.lean ====
section
/-! SUPPORT. The model's own tests. Every expected value is written from the spec: the tables of
95_test_vectors.md, the examples of the rules, or the opcode map of R50. -/

namespace Sys2Proof.Tests

open Sys2Proof.Machine

set_option maxRecDepth 100000

/-! ## Helpers -/

/-- The illustrative build of 95_test_vectors.md section 5.1, every latency two cycles. -/
def demoBuild : Build where
  argLess1  := 63
  sepOffset := 0x075BCD15
  seedBits  := 5
  lat       := ⟨⟨1, []⟩, ⟨1, []⟩, ⟨1, []⟩, ⟨1, []⟩, ⟨1, []⟩, ⟨1, []⟩, ⟨1, []⟩, 1⟩

/-- The register value after SEED 5 (95_test_vectors.md section 5.2). -/
def seed5 : Reg256 := 0x9d48b275531d9178213f408491593c6fa33547d8062aa629958af823cbf59e18

/-- The register value one output after SEED 5 (section 6.1). -/
def seed5next : Reg256 := 0x531d9178213f408491593c6fa33547d8062aa629958af82356bd2cf8a6a836ba

/-- A state with both registers at `S`, in a given sequencer state, with given inputs to come. -/
def at' (S : Reg256) (q : Sequencer) (ins : List Pins) : State where
  build := demoBuild
  breg := S
  wreg := unpack S
  out := 0
  seq := q
  inputs := ins
  draws := 0

/-- The registers and the response a command leaves in such a state. -/
def after (S : Reg256) (i : Instr) : Option (Reg256 × Reg256 × Out32 × Sequencer) :=
  match exec i (at' S (.busy ⟨0, 0⟩ 0) []) with
  | .next t => some (t.breg, pack t.wreg, t.out, t.seq)
  | .fault _ | .refused _ => none

/-- Whether a step answers a next state. -/
def goesOn (s : State) : Bool :=
  match step s with
  | .next _ => true
  | .fault _ | .refused _ => false

/-! ## Words: 95_test_vectors.md sections 6.6 and 8, R50 -/

theorem test_decode_seed : decode 64 0x00000000000000051 = .ok (.seed 5) := by decide
theorem test_decode_seedDefault : decode 64 0x00000000000000002 = .ok (.seedDefault 0) := by decide
theorem test_decode_nextBs : decode 64 0x00000000000000003 = .ok (.nextBs 0) := by decide
theorem test_decode_nextWv : decode 64 0x00000000000000004 = .ok (.nextWv 0) := by decide
theorem test_decode_discard : decode 64 0x00000000000000025 = .ok (.discard 2) := by decide
theorem test_decode_getMin : decode 64 0x000000000000ffff6 = .ok (.getMin 0xFFFF) := by decide
theorem test_decode_getMax : decode 64 0x00000000000000007 = .ok (.getMax 0) := by decide
theorem test_decode_reservedZero : decode 64 0x00000000000000000 = .ok (.reservedZero 0) := by decide
theorem test_decode_reservedHigh : decode 64 0xfffffffffffffffff = .ok (.reservedHigh 7 (2 ^ 64 - 1)) := by decide
theorem test_decode_nine : decode 64 0x00000000000000059 = .ok (.reservedHigh 1 5) := by decide
theorem test_decode_too_wide : decode 64 0x100000000000000000 = .error (.tooWide 0x100000000000000000) := by decide
theorem test_encode_seed : encode (.seed 5) = 0x51 := by decide
theorem test_encode_reserved : encode (.reservedHigh 1 5) = 0x59 := by decide

/-- Each row of the opcode table, by its match value, as the host numbers the bits. -/
theorem test_table_words :
    [0, 1, 2, 3, 4, 5, 6, 7, 8].map (decodeTableWord 8) =
      [some (.reservedZero 0), some (.seed 0), some (.seedDefault 0), some (.nextBs 0), some (.nextWv 0),
       some (.discard 0), some (.getMin 0), some (.getMax 0), some (.reservedHigh 0 0)] := by decide

/-- The word of each row runs as the first command after reset. -/
theorem test_first_word_runs :
    [0, 1, 2, 3, 4, 5, 6, 7, 8].map (fun w => goesOn (State.reset.withFetchWord 8 w)) =
      List.replicate 9 true := by decide

/-- Ill-formed commands: the argument does not fit ARG_W, for each field layout. -/
theorem test_wellFormed_smoke :
    (Instr.seed (2 ^ 64)).wellFormed 64 = false ∧ (Instr.seedDefault (2 ^ 64)).wellFormed 64 = false ∧
    (Instr.nextBs (2 ^ 64)).wellFormed 64 = false ∧ (Instr.nextWv (2 ^ 64)).wellFormed 64 = false ∧
    (Instr.discard 2).wellFormed 1 = false ∧ (Instr.getMin (2 ^ 64)).wellFormed 64 = false ∧
    (Instr.getMax (2 ^ 64)).wellFormed 64 = false ∧ (Instr.reservedZero (2 ^ 64)).wellFormed 64 = false ∧
    (Instr.reservedHigh 7 (2 ^ 224)).wellFormed 224 = false ∧ (Instr.seed (2 ^ 64 - 1)).wellFormed 64 = true := by
  decide

/-! ## Field arithmetic: 95_test_vectors.md section 2 -/

theorem test_clmul : clmul 0xDEADBEEF 0x12345678 = 0xC42FDE8DE112DA8 := by decide +kernel
theorem test_reduce_x510 : reduce (1 <<< 510) = 0x4000000000004041 := by decide +kernel
theorem test_reduce_ones : reduce ((1 <<< 511) - 1) =
    0x7fffffffffffffffffffffffffffffffffffffffffffffff800000007fff8006 := by decide +kernel
theorem test_mulmod_ones : mulElem (BitVec.allOnes 255) (BitVec.allOnes 255) =
    0x2aaaaaaaaaaaaaaaaaaaaaaaaaaaaaaaaaaaaaaaaaaaaaaabfffffffd555403d := by decide +kernel
theorem test_mulmod_inverse : mulmod 2 ((1 <<< 254) ^^^ (1 <<< 30) ^^^ (1 <<< 6) ^^^ (1 <<< 2)) = 1 := by decide +kernel
theorem test_mulmod_relaxed : mulmod (mod512.setWidth 256) 1 = 0 := by decide +kernel
theorem test_xss_folds : xss (1 <<< 255) = 0x100000112 := by decide
theorem test_xss_ones : xss (BitVec.allOnes 256 <<< 1) =
    0xfffffffffffffffffffffffffffffffffffffffffffffffffffffffefffffeee := by decide

/-! ## DEG2, JUMP, TROM: 95_test_vectors.md sections 3 and 6.2 -/

theorem test_deg2 : deg2 10 = 0x100000000000000000000000100010010 := by decide +kernel
theorem test_jump_x97 : jump 2 3 64 5 = 0x2000000000000000000000000 := by decide +kernel
theorem test_trom_1234 : trom 0x1234 = 0x123400133328 := by decide +kernel
theorem test_trom_ffff : trom 0xFFFF = 0xffff00f1ff0e := by decide +kernel
theorem test_buildTrom_ffff : buildTrom 0xFFFF = 0xffff00f1ff0e := by decide +kernel

/-! ## The commands: 95_test_vectors.md sections 5 and 6 -/

theorem test_seed : after 0x2 (.seed 5) = some (seed5, seed5, 0, .resp ⟨0, 0⟩) := by decide +kernel
/-- With DEFAULT_SEED = 5, as in R77's example. -/
theorem test_seedDefault : after 0x2 (.seedDefault 7) = after 0x2 (.seed 5) := rfl
theorem test_nextBs : after seed5 (.nextBs 9) =
    some (seed5next, seed5, 0x9d48b275, .resp ⟨0, 0x9d48b275⟩) := by decide +kernel
theorem test_nextBs_all_fold : (nextBs (BitVec.allOnes 256 <<< 1)) =
    (0xffffffffffffffffffffffffffffffffffffffffffffffff000000f0ffffff0e, 0xffffffff) := by decide +kernel
theorem test_nextWv : after seed5 (.nextWv 9) =
    some (seed5, seed5next, 0x9d48b275, .resp ⟨0, 0x9d48b275⟩) := by decide +kernel
theorem test_nextWv_high_word_only : pack (advanceWords (unpack (0xffff <<< 240))) =
    0x000000000000000000000000000000000000000000000000ffff00f1ff0e0000 := by decide +kernel
theorem test_discard : after seed5 (.discard 1) = some (seed5next, seed5, 0, .resp ⟨0, 0⟩) := by decide +kernel
theorem test_discard_x225 : discarded demoBuild 2 7 = 0x00000002 <<< 224 := by decide +kernel
theorem test_getMin : after seed5 (.getMin 0xFFFF) = some (seed5, seed5, 0, .resp ⟨0, 0⟩) := by decide +kernel
theorem test_getMax : after seed5 (.getMax 0) = some (seed5, seed5, 0, .resp ⟨0, 0xffffffff⟩) := by decide +kernel
theorem test_reservedZero : after seed5 (.reservedZero 0) = some (seed5, seed5, 0, .resp ⟨1, 0⟩) := by decide +kernel
theorem test_reservedHigh : after seed5 (.reservedHigh 1 5) = some (seed5, seed5, 0, .resp ⟨1, 0⟩) := by decide +kernel

/-! ## The handshake and reset: R87, R89, R103, R104 -/

/-- An offer in IDLE is latched; the pins' argument counts modulo 2^ARG_W. -/
theorem test_accept : (idleEdge ⟨false, true, 3, 2 ^ 64 + 5, false⟩ (at' 2 .idle [])).seq = .busy ⟨3, 5⟩ 1 := by decide

/-- GET_MAX from the port: accepted, two cycles, response taken, idle again. -/
theorem test_transaction : (observe 4 (at' 2 .idle (hostScript demoBuild ⟨7, 0⟩))).2 =
    [.accepted ⟨7, 0⟩, .taken ⟨0, 0xffffffff⟩] := by decide +kernel

/-- Reset abandons a command: INIT until two cycles after the first edge with rst = 0, then idle with the registers of
SEED_DEFAULT, and no response. -/
theorem test_reset_sequence :
    [1, 2, 3, 4].map (fun n => (observe n (at' 2 (.busy ⟨3, 0⟩ 0) [⟨true, false, 0, 0, true⟩])).1.seq) =
      [.init 2, .init 1, .init 0, .idle] ∧
    (observe 4 (at' 2 (.busy ⟨3, 0⟩ 0) [⟨true, false, 0, 0, true⟩])).2 = [] := by decide

theorem test_reset_registers :
    (observe 4 (at' 2 (.busy ⟨3, 0⟩ 0) [⟨true, false, 0, 0, true⟩])).1.breg = shifted (seedState demoBuild 5) := rfl

/-! ## The assembler: R55, R56 -/

/-- `SEED 5` as in R55's example of a listing. -/
theorem test_assemble_seed : assembleLine 64 ['S', 'E', 'E', 'D', ' ', '5', ' ', ';', 'x'] = .ok (some ⟨1, 5⟩) := by decide
theorem test_listing_seed : listing 64 ⟨1, 5⟩ =
    ['C', 'W', ' ', '=', ' ', '0', 'x'] ++ List.replicate 15 '0' ++ ['5', '1'] := by decide
/-- `.cmd 0x9, 0` as in R55. -/
theorem test_assemble_cmd :
    assembleLine 64 ['.', 'c', 'm', 'd', ' ', '0', 'x', '9', ',', ' ', '0'] = .ok (some ⟨9, 0⟩) := by decide
theorem test_assemble_operand_missing : assembleLine 64 ['S', 'E', 'E', 'D'] = .error .wrongOperands := by decide
theorem test_assemble_too_wide : assembleLine 1 ['d', 'i', 's', 'c', 'a', 'r', 'd', ' ', '2'] = .error .operandTooWide := by
  decide

/-! ## Witnesses: for each statement with hypotheses, values that meet all of them -/

theorem witness_DecodeOfEncode : (Instr.reservedHigh 7 (2 ^ 64 - 1)).wellFormed 64 = true := by decide

theorem witness_EveryCommandWordDecodes : 2 ^ 68 - 1 < 2 ^ (64 + 4) ∧ 2 ^ (64 + 4) ≤ 2 ^ 68 := by decide

theorem witness_CommandWordLayout : (Command.mk 15 (2 ^ 64 - 1)).arg < 2 ^ 64 ∧ 3 < 4 ∧ 63 < 64 := by decide

theorem witness_StepRunsTheDecodedCommand :
    (at' 2 (.busy ⟨1, 5⟩ 0) []).pins.rst = false ∧ (at' 2 (.busy ⟨1, 5⟩ 0) []).seq = .busy ⟨1, 5⟩ 0 ∧
    decode (at' 2 (.busy ⟨1, 5⟩ 0) []).build.argW (Command.mk 1 5).word = .ok (.seed 5) ∧
    decode (at' 2 .idle []).build.argW (0x53 % 2 ^ 8) = .ok (.nextBs 5) := by decide

theorem witness_StatusOfEachCommand :
    (1 ≤ (Instr.getMax 0).op.toNat ∧ (Instr.getMax 0).op.toNat ≤ 7) ∧ (Instr.reservedZero 0).op.toNat = 0 ∧
    8 ≤ (Instr.reservedHigh 0 0).op.toNat := by decide

theorem witness_Clmul : 255 < 256 ∧ (0x3 : Reg256) ≠ 0 ∧ (1 <<< 255 : Reg256) ≠ 0 := by decide

theorem witness_Reduce :
    (1 <<< 254 : Scratch).toNat < 2 ^ 255 ∧ (255 ≤ 255 ∧ 255 ≤ 511 ∧ 0 < 512) ∧ (255 ≤ 511 ∧ 511 ≤ 511 ∧ 511 < 512) := by
  decide +kernel

theorem witness_FullPeriod : (0 < 2 ^ 224 ∧ 2 ^ 224 - 1 < 2 ^ 224 ∧ 224 + 32 ≤ 256) ∧ (2 ^ 256 - 1 < 2 ^ 256 ∧ 256 + 0 ≤ 256) := by
  decide

theorem witness_DistinctSeeds :
    ∃ s s' t t' : State, s.build = s'.build ∧ 0 < 2 ^ s.build.argW ∧ 1 < 2 ^ s.build.argW ∧ 0 ≠ 1 ∧
      exec (.seed 0) s = .next t ∧ exec (.seed 1) s' = .next t' :=
  ⟨at' 2 .idle [], at' seed5 .idle [], _, _, rfl, by decide, by decide, by decide, rfl, rfl⟩

theorem witness_PowerTable : (1 ≤ 255 ∧ 255 ≤ 255) ∧ 254 ≤ 254 := by decide

theorem witness_Jump : (2 ^ 224 - 1 < 2 ^ 224 ∧ 224 + 32 ≤ 256) ∧ 223 < 224 := by decide

theorem witness_JumpIndices :
    31 ∈ jumpReads (2 ^ 31) 32 0 ∧ 95 ∈ jumpReads (2 ^ 63) demoBuild.argW 32 ∧ 68 ∈ jumpReads (2 ^ 63) demoBuild.argW 5 := by
  decide

theorem witness_JumpsCompose :
    (1 < 2 ^ 1 ∧ 1 < 2 ^ 1 ∧ 1 + 1 < 2 ^ 2 ∧ 1 + 254 ≤ 256 ∧ 2 + 254 ≤ 256) ∧ 224 + 31 + 1 ≤ 256 ∧
    (2 ^ 224 - 1 < 2 ^ 224 ∧ 224 + 5 ≤ 256) ∧ List.Perm [6, 5] (jumpReads 3 2 5) := by decide

theorem witness_Placement : 0 < 2 ∧ 1 < 2 := by decide

/-- The build with SEP_OFFSET = 0 of 95_test_vectors.md section 5.3. -/
def zeroBuild : Build := { demoBuild with sepOffset := 0 }

theorem witness_Seed :
    2 ^ 64 - 1 < 2 ^ (at' 2 .idle []).build.argW ∧ 0 < 2 ^ zeroBuild.argW ∧ zeroBuild.sepOffset = 0 := by decide

theorem witness_NextBs :
    (at' seed5 .idle []).breg.getLsbD 0 = false ∧ (at' 2 .idle []).breg.extractLsb' 224 32 = 0 := by decide

theorem witness_NextWv : (pack (at' seed5 .idle []).wreg).getLsbD 0 = false ∧ 11 < 12 := by decide +kernel

theorem witness_Discard :
    0 < 2 ^ (at' 2 .idle []).build.argW ∧ 2 ^ 64 - 1 < 2 ^ (at' 2 .idle []).build.argW ∧
    (at' 2 .idle []).breg.getLsbD 0 = false := by decide

theorem witness_Reserved : (0x0 : BitVec 4) = 0x0 ∧ (0x8 : BitVec 4) ≤ 0x8 ∧ (0x8 : BitVec 4) ≤ 0xF := by decide

theorem witness_Ignored : (0x7 : BitVec 4) ∈ ([0x2, 0x3, 0x4, 0x6, 0x7] : List (BitVec 4)) := by decide

theorem witness_SeedingSynchronises :
    (Instr.getMin 0).op ∉ ([0x1, 0x2, 0x3, 0x4, 0x5] : List (BitVec 4)) ∧
    (Instr.reservedHigh 7 0).op ∉ ([0x1, 0x2, 0x3, 0x4, 0x5] : List (BitVec 4)) := by decide

theorem witness_Out :
    (Instr.nextBs 0).op = 0x3 ∧ (Instr.nextWv 0).op = 0x4 ∧ (Instr.seed 0).op ≠ 0x3 ∧ (Instr.seed 0).op ≠ 0x4 := by decide

/-- The registers of a state with both registers at `S`. -/
def coreAt (S : Reg256) : CoreState := (at' S .idle []).core

theorem witness_TwoModes : pack (at' seed5 .idle []).wreg = (at' seed5 .idle []).breg ∧
    pack (coreAt seed5).wreg = (coreAt seed5).breg := by decide +kernel

theorem witness_DiscardEqualsStepping : 3 < 2 ^ demoBuild.argW ∧ (coreAt seed5).breg.getLsbD 0 = false := by decide

/-- Two commands that do not seed. -/
def nextAndDiscard : List Command := [⟨3, 0⟩, ⟨5, 2⟩]

theorem witness_ExponentView :
    5 < 2 ^ demoBuild.argW ∧ programFits demoBuild nextAndDiscard ∧
    (∀ c ∈ nextAndDiscard, c.op ≠ 0x1 ∧ c.op ≠ 0x2) ∧
    (coreAt 2).breg = shifted 1 ∧ pack (coreAt 2).wreg = shifted 1 :=
  ⟨by decide, by unfold programFits; decide, by decide, by decide, by decide +kernel⟩

theorem witness_MixedModes :
    pack (coreAt 2).wreg = (coreAt 2).breg ∧
    (∀ c ∈ ([⟨3, 0⟩, ⟨4, 0⟩, ⟨3, 0⟩] : List Command), c.op = 0x3 ∨ c.op = 0x4) ∧
    (0x3 : BitVec 4) ∈ ([0x3, 0x4] : List (BitVec 4)) :=
  ⟨by decide +kernel, by decide, by decide⟩

/-- A pending response. -/
def pending : State := at' 2 (.resp ⟨0, 7⟩) [Pins.quiet, Pins.quiet, ⟨false, false, 0, 0, true⟩]

theorem witness_HandshakeOutputs :
    pending.rspValid = true ∧ pending.pins.rst = false ∧ pending.pins.rspReady = false := by decide

theorem witness_CommandTransfer :
    ((at' 2 .idle [⟨false, true, 1, 5, false⟩]).seq = .idle ∧ (at' 2 .idle [⟨false, true, 1, 5, false⟩]).pins.rst = false ∧
      (at' 2 .idle [⟨false, true, 1, 5, false⟩]).pins.cmdValid = true) ∧
    ((at' 2 .idle []).seq = .idle ∧ (at' 2 .idle []).pins.rst = false ∧ (at' 2 .idle []).pins.cmdValid = false) ∧
    pending.seq ≠ .idle := by decide

theorem witness_Latency : (at' 2 (.busy ⟨3, 0⟩ 1) []).seq = .busy ⟨3, 0⟩ 1 ∧ (at' 2 (.busy ⟨3, 0⟩ 1) []).noReset := by
  unfold State.noReset; decide

theorem witness_ResponseTransfer :
    (∀ p ∈ pending.inputs.take 2, p.rst = false ∧ p.rspReady = false) ∧ pending.seq = .resp ⟨0, 7⟩ ∧
    (at' 2 (.resp ⟨0, 7⟩) [⟨false, false, 0, 0, true⟩]).pins.rspReady = true ∧
    (at' 2 (.resp ⟨0, 7⟩) [⟨false, false, 0, 0, true⟩]).pins.rst = false := by decide

theorem witness_Reset :
    (at' 2 (.busy ⟨3, 0⟩ 0) [⟨true, true, 1, 0, true⟩, Pins.quiet]).pins.rst = true ∧
    (∀ q ∈ [Pins.quiet], q.rst = false) ∧ 0 ≤ demoBuild.lat.init ∧ 2 ≤ demoBuild.lat.init := by decide

/-- A sound state in the middle of an execution. -/
theorem witness_Invariant : (at' seed5 (.busy ⟨3, 0⟩ 0) []).Inv ∧
    ∃ t, step (at' seed5 (.busy ⟨3, 0⟩ 0) []) = .next t := by
  refine ⟨⟨fun _ => ⟨by decide, by decide +kernel⟩, fun _ => ⟨by decide, by decide +kernel⟩, ?_, ?_⟩, _, rfl⟩
  · intro c left h
    cases h
    decide
  · intro r h
    cases h

/-- One state for each case: idle, and at the edge that ends a GET_MIN. -/
theorem witness_OnlyACompletedCommand :
    ((at' seed5 .idle []).reliable ∧ (at' seed5 .idle []).pins.rst = false ∧
      (∀ c, (at' seed5 .idle []).seq ≠ .busy c 0) ∧ ∃ t, step (at' seed5 .idle []) = .next t) ∧
    ((at' seed5 (.busy ⟨6, 0⟩ 0) []).reliable ∧ (at' seed5 (.busy ⟨6, 0⟩ 0) []).pins.rst = false ∧
      (at' seed5 (.busy ⟨6, 0⟩ 0) []).seq = .busy ⟨6, 0⟩ 0 ∧ ∃ t, step (at' seed5 (.busy ⟨6, 0⟩ 0) []) = .next t) :=
  ⟨⟨fun _ => by rintro ⟨⟩, by decide, fun _ => by rintro ⟨⟩, _, rfl⟩,
    ⟨fun _ => by rintro ⟨⟩, by decide, rfl, _, rfl⟩⟩

/-- A host that waits an edge before it offers GET_MAX. -/
def slowHost : State := at' 2 .idle (Pins.quiet :: hostScript demoBuild ⟨7, 0⟩)

theorem witness_Refinement : slowHost.seq = .idle ∧ slowHost.noReset ∧ (observe 5 slowHost).1.seq = .idle ∧
    acceptedOf (observe 5 slowHost).2 = [⟨7, 0⟩] := by
  unfold State.noReset; decide +kernel

theorem witness_ProgramRun :
    (at' 2 .idle (programScript demoBuild [⟨7, 0⟩, ⟨9, 5⟩])).seq = .idle ∧ programFits demoBuild [⟨7, 0⟩, ⟨9, 5⟩] ∧
    (at' 2 .idle (programScript demoBuild [⟨7, 0⟩, ⟨9, 5⟩])).inputs = programScript demoBuild [⟨7, 0⟩, ⟨9, 5⟩] :=
  ⟨rfl, by unfold programFits; decide, rfl⟩

theorem witness_Aliases :
    (parseNumber ['0', 'x', 'F'] = some 15 ∧ 15 < 2 ^ 4 ∧ 2 ^ 3 ≤ 15) ∧
    ([] : List (List Char)).length ≠ 1 ∧ [['5']] ≠ [] ∧ ([9, 0] : List (Fin 10)) ≠ [] := by decide

theorem witness_Listing : (Command.mk 15 (2 ^ 64 - 1)).arg < 2 ^ 64 ∧ 5 < 2 ^ 64 ∧ 5 < 16 ^ (0 + 1) := by decide

end Sys2Proof.Tests
end

section
/-! The status of every command's response (30_encoding.md R49). The opcode of a constructor is read off by `rfl`:
an equation lemma made here would wait for the tests above, and each waiting proof costs a thread's stack. -/

namespace Sys2Proof.Machine

/-- The opcodes of the table's last row have op[3] set (R50). -/
theorem eight_le_op_reservedHigh (low : BitVec 3) (a : Nat) : 8 ≤ (Instr.reservedHigh low a).op.toNat := by
  change 8 ≤ ((1#1) ++ low).toNat
  rw [BitVec.toNat_append]
  exact Nat.left_le_or

/-- What a command answers, by its opcode (R49): one with an assigned opcode ends with a response of status OK, one
with a reserved opcode does ILLEGAL() and nothing else (R52, R91). -/
theorem exec_by_opcode (i : Instr) (s : State) :
    ((1 ≤ i.op.toNat ∧ i.op.toNat ≤ 7) ∧ ∃ t data, exec i s = .next t ∧ t.seq = .resp ⟨statusOk, data⟩) ∨
    ((i.op.toNat = 0 ∨ 8 ≤ i.op.toNat) ∧ exec i s = .next s.illegal) := by
  cases i with
  | reservedZero a => exact .inr ⟨.inl rfl, exec_reservedZero a s⟩
  | reservedHigh low a => exact .inr ⟨.inr (eight_le_op_reservedHigh low a), exec_reservedHigh low a s⟩
  | seed | seedDefault | nextBs | nextWv | discard | getMin | getMax =>
    exact .inl ⟨⟨Nat.le_of_ble_eq_true rfl, Nat.le_of_ble_eq_true rfl⟩, _, _, rfl, rfl⟩

/-- Settles O8, by whether the opcode is assigned or reserved. -/
theorem statusOfEachCommand : Obligations.StatusOfEachCommand := by
  intro i s
  obtain ⟨hop, t, data, ht, hseq⟩ | ⟨hop, ht⟩ := exec_by_opcode i s
  · exact ⟨t, _, ht, hseq, fun _ => rfl, fun hr => by omega,
      (by decide : statusOk ≠ 0b10), (by decide : statusOk ≠ 0b11)⟩
  · exact ⟨_, _, ht, illegal_seq s, fun ha => by omega, fun _ => rfl, by decide, by decide⟩

end Sys2Proof.Machine
end

section
/-! CLMUL and REDUCE beyond their spec lemmas: corner cases, single bits, and the shift convention
(40_field_arith.md R58, R59, R61). Each identity of vectors is proved as one of the polynomials they stand for. -/

namespace Sys2Proof

open Polynomial Machine

/-! ### Powers of x and degrees -/

/-- The vector of x^k, written in the statements as the number 1 <<< k. -/
theorem toPoly_one_shiftLeft {w k : Nat} (h : k < w) : toPoly (((1 <<< k : Nat) : BitVec w)) = X ^ k := by
  rw [toPoly_of_bits _ {k}, Finset.sum_singleton]
  intro i
  rw [BitVec.natCast_eq_ofNat, BitVec.getLsbD_ofNat, Nat.one_shiftLeft, Nat.testBit_two_pow]
  by_cases hi : i = k
  · simp [hi, h]
  · simp [hi, Ne.symm hi]

theorem toPoly_natDegree_le (a : Reg256) : (toPoly a).natDegree ≤ 255 :=
  natDegree_le_iff_coeff_eq_zero.2 fun i hi => by
    rw [toPoly_coeff, BitVec.getLsbD_of_ge a i (by omega)]; rfl

/-! ### CLMUL (R58) -/

theorem clmul_bit_511 (a b : Reg256) : (clmul a b).getLsbD 511 = false := by
  have hdeg : (toPoly (clmul a b)).natDegree ≤ 255 + 255 := by
    rw [toPoly_clmul]
    exact natDegree_mul_le_of_le (toPoly_natDegree_le a) (toPoly_natDegree_le b)
  have h := coeff_eq_zero_of_natDegree_lt (Nat.lt_succ_of_le hdeg)
  simpa [toPoly_coeff] using h

/-- The top bit a product can have is the AND of the operands' top bits. -/
theorem clmul_bit_510 (a b : Reg256) : (clmul a b).getLsbD 510 = (a.getLsbD 255 && b.getLsbD 255) := by
  have h := coeff_mul_add_eq_of_natDegree_le (toPoly_natDegree_le a) (toPoly_natDegree_le b)
  rw [← toPoly_clmul, toPoly_coeff, toPoly_coeff, toPoly_coeff] at h
  have hand : ∀ p q r : Bool, (if p then (1 : ZMod 2) else 0) = (if q then 1 else 0) * (if r then 1 else 0) →
      p = (q && r) := by decide
  exact hand _ _ _ h

theorem clmul_comm (a b : Reg256) : clmul a b = clmul b a :=
  toPoly_injective (by rw [toPoly_clmul, toPoly_clmul, mul_comm])

theorem clmul_zero (a : Reg256) : clmul a 0 = 0 :=
  toPoly_injective (by rw [toPoly_clmul, toPoly_zero, toPoly_zero, mul_zero])

theorem clmul_one_shiftLeft (a : Reg256) {k : Nat} (h : k < 256) : clmul a (1 <<< k) = a.setWidth 512 <<< k := by
  have hfit : ∀ i, 512 ≤ i + k → (a.setWidth 512).getLsbD i = false := fun i hi => by
    rw [BitVec.getLsbD_setWidth, BitVec.getLsbD_of_ge a i (by omega), Bool.and_false]
  apply toPoly_injective
  rw [toPoly_clmul, toPoly_one_shiftLeft h, toPoly_shiftLeft _ _ hfit, toPoly_zext a (by omega), mul_comm]

theorem clmul_one (a : Reg256) : clmul a 1 = a.setWidth 512 := by
  simpa using clmul_one_shiftLeft a (k := 0) (by decide)

theorem clmul_natDegree {a b : Reg256} (ha : a ≠ 0) (hb : b ≠ 0) :
    (toPoly (clmul a b)).natDegree = (toPoly a).natDegree + (toPoly b).natDegree := by
  rw [toPoly_clmul, natDegree_mul (toPoly_ne_zero ha) (toPoly_ne_zero hb)]

/-- Settles O9: the product of polynomials decides every corner case; the two examples are evaluated. -/
theorem clmulIsThePolynomialProduct : Obligations.ClmulIsThePolynomialProduct := by
  refine ⟨fun a b => ⟨toPoly_clmul a b, clmul_bit_511 a b, clmul_zero a, ?_, clmul_one a,
    fun k hk => clmul_one_shiftLeft a hk, clmul_comm a b, clmul_natDegree⟩, ?_, ?_, ?_⟩
  · rw [clmul_comm, clmul_zero]
  · rw [clmul_bit_510]; decide
  · decide +kernel
  · decide +kernel

/-! ### REDUCE (R59) -/

/-- The long division ends below degree 255, so no bit is lost when its result is cut to 255 bits. -/
theorem remLoop_mod512_lt (c : Scratch) : (remLoop mod512 255 257 c).toNat < 2 ^ 255 :=
  Nat.lt_pow_two_of_testBit _ fun _ hi =>
    remLoop_bit_of_ge mod512 255 mod512_monic mod512_natDegree 257 c (scratch_degree c) le_rfl hi

theorem reduce_of_lt {c : Scratch} (h : c.toNat < 2 ^ 255) : reduce c = c.setWidth 255 := by
  have hbits : ∀ i, 255 ≤ i → c.getLsbD i = false := fun i hi =>
    Nat.testBit_lt_two_pow (h.trans_le (Nat.pow_le_pow_right (by decide) hi))
  apply toPoly_injective
  rw [toPoly_reduce, ← toPoly_setWidth_of_bits c hbits, elem_mod]

theorem reduce_xor (c d : Scratch) : reduce (c ^^^ d) = reduce c ^^^ reduce d :=
  toPoly_injective (by rw [toPoly_reduce, toPoly_xor, toPoly_xor, toPoly_reduce, toPoly_reduce, add_modByMonic])

theorem reduce_zero : reduce 0 = 0 :=
  toPoly_injective (by rw [toPoly_reduce, toPoly_zero, toPoly_zero, zero_modByMonic])

theorem reduce_mod512 : reduce mod512 = 0 :=
  toPoly_injective (by rw [toPoly_reduce, toPoly_mod512, toPoly_zero, modByMonic_self polyP_monic])

/-- x^255 differs from P by a polynomial that is already reduced. -/
theorem reduce_x255 : reduce (1 <<< 255) = 0x80000089 := by
  have hsplit : ((1 <<< 255 : Nat) : Scratch) = mod512 ^^^ 0x80000089 := by decide +kernel
  rw [hsplit, reduce_xor, reduce_mod512, reduce_of_lt (by decide +kernel)]
  decide +kernel

/-- XORing the modulus in at bit k changes exactly the bits of its five terms, moved up by k - 255. -/
theorem xor_mod512_shiftLeft_bit_ne_iff (c : Scratch) {k j : Nat} (hk : 255 ≤ k) (hj : j < 512) :
    (c ^^^ (mod512 <<< (k - 255))).getLsbD j ≠ c.getLsbD j ↔
      j = k ∨ j = k - 224 ∨ j = k - 248 ∨ j = k - 252 ∨ j = k - 255 := by
  have hflip : (c ^^^ (mod512 <<< (k - 255))).getLsbD j ≠ c.getLsbD j ↔
      k - 255 ≤ j ∧ j - (k - 255) ∈ ({255, 31, 7, 3, 0} : Finset Nat) := by
    rw [BitVec.getLsbD_xor, BitVec.getLsbD_shiftLeft, mod512_bits]
    cases c.getLsbD j <;> simp [hj, -Finset.mem_insert]
  rw [hflip]
  simp only [Finset.mem_insert, Finset.mem_singleton]
  omega

/-- Settles O10: the remainder modulo P decides all but the value at x^510, which is evaluated. -/
theorem reduceIsTheRemainder : Obligations.ReduceIsTheRemainder := by
  refine ⟨fun c => ⟨toPoly_reduce c, remLoop_mod512_lt c, reduce_of_lt, reduce_xor c,
    fun k hk _ j hj => xor_mod512_shiftLeft_bit_ne_iff c hk hj⟩, reduce_mod512, reduce_x255, reduce_zero, ?_⟩
  decide +kernel

/-! ### The shift convention (R61) -/

/-- Settles O13: XSS is XS seen through the shifted form, and XS multiplies by x modulo P. -/
theorem shiftConventionMultipliesByX : Obligations.ShiftConventionMultipliesByX := by
  refine ⟨fun s => ⟨toPoly_xs s, (shifted_xs s).symm, ?_⟩, fun S => ⟨xss_bit_zero S, nextBs_fst S⟩⟩
  rw [← shifted_xs, toPoly_shifted, toPoly_xs]

end Sys2Proof
end

section
/-! DEG2 and JUMP (41_jump_ahead.md R64 to R69). That they are powers of x modulo P is known; here are the values of
the table's listed entries, the indices JUMP reads, and the laws that follow. -/

namespace Sys2Proof

open Polynomial Machine

/-! ### The entries of DEG2 as sums of x, x^2, x^4, ..., x^128 (R64)

Squaring is additive over GF(2), and modulo P x^256 is x^32 + x^8 + x^4 + x, whose exponents are powers of two too.
So every entry is a sum of the first eight, and squaring steps its eight coefficients as an 8-bit feedback register
steps: entry 255 costs 255 steps of that register, not 255 products modulo P. (The evaluations are `decide` on eight
bits and not `decide +kernel`, which would wait, with a thread each, for the tests above.) -/

/-- The sum of x^(2^j) over the set bits j < n of `c`. -/
def bitPowers (c : BitVec 8) : Nat → Elem
  | 0 => 0
  | j + 1 => bitPowers c j ^^^ bif c.getLsbD j then ((1 <<< 2 ^ j : Nat) : Elem) else 0

/-- One step of the coefficients: bit 7 folds back to the bits 5, 3, 2 and 0, as x^256 does to x^32 + x^8 + x^4 + x. -/
def nextCoeffs (c : BitVec 8) : BitVec 8 := (c <<< 1) ^^^ bif c.getLsbD 7 then 0x2D else 0

theorem toPoly_bitPowers (c : BitVec 8) {n : Nat} (hn : n ≤ 8) :
    toPoly (bitPowers c n) = ∑ j ∈ Finset.range n, if c.getLsbD j then (X : (ZMod 2)[X]) ^ 2 ^ j else 0 := by
  induction n with
  | zero => exact toPoly_zero
  | succ n ih =>
    have hlt : 2 ^ n < 255 := (Nat.pow_le_pow_right (by decide) (by omega : n ≤ 7)).trans_lt (by decide)
    rw [Finset.sum_range_succ, ← ih (by omega), bitPowers, toPoly_xor]
    cases c.getLsbD n
    · rw [cond_false, toPoly_zero, if_neg Bool.false_ne_true]
    · rw [cond_true, toPoly_one_shiftLeft hlt, if_pos rfl]

theorem bitPowers_zero : bitPowers 0 8 = 0 := by decide

theorem toPoly_bitPowers_shiftLeft (c : BitVec 8) :
    toPoly (bitPowers (c <<< 1) 8) =
      ∑ j ∈ Finset.range 7, if c.getLsbD j then (X : (ZMod 2)[X]) ^ 2 ^ (j + 1) else 0 := by
  rw [toPoly_bitPowers _ le_rfl, Finset.sum_range_succ']
  refine (add_eq_left.2 ?_).trans (Finset.sum_congr rfl fun j hj => ?_)
  · simp
  · have hlt : j + 1 < 8 := Nat.succ_lt_succ (Finset.mem_range.1 hj)
    rw [BitVec.getLsbD_shiftLeft, decide_eq_true hlt, Nat.add_sub_cancel]
    simp

theorem toPoly_bitPowers_xor (c d : BitVec 8) :
    toPoly (bitPowers (c ^^^ d) 8) = toPoly (bitPowers c 8) + toPoly (bitPowers d 8) := by
  simp only [toPoly_bitPowers _ le_rfl, ← Finset.sum_add_distrib]
  refine Finset.sum_congr rfl fun j _ => ?_
  rw [BitVec.getLsbD_xor]
  cases c.getLsbD j <;> cases d.getLsbD j <;> simp [poly_add_self]

/-- The feedback of `nextCoeffs` stands for x^256 modulo P. -/
theorem toPoly_bitPowers_feedback : toPoly (bitPowers 0x2D 8) = X ^ 256 %ₘ polyP := by
  have hfold : bitPowers 0x2D 8 = fb256.setWidth 255 := by decide
  have hbits : ∀ i, 255 ≤ i → fb256.getLsbD i = false := fun i hi => by
    rw [fb256_bits]
    simp only [Finset.mem_insert, Finset.mem_singleton, decide_eq_false_iff_not]
    omega
  rw [← elem_mod, hfold, toPoly_setWidth_of_bits _ hbits, X_pow_256, add_modByMonic,
    (modByMonic_eq_zero_iff_dvd polyP_monic).2 (dvd_mul_left _ _), zero_add]

/-- Squaring a sum of x, x^2, ..., x^128 steps its coefficients. -/
theorem mulElem_bitPowers_self (c : BitVec 8) :
    mulElem (bitPowers c 8) (bitPowers c 8) = bitPowers (nextCoeffs c) 8 := by
  have hsq (j : Nat) : (if c.getLsbD j then (X : (ZMod 2)[X]) ^ 2 ^ j else 0) ^ 2 =
      if c.getLsbD j then X ^ 2 ^ (j + 1) else 0 := by
    cases c.getLsbD j
    · simp
    · rw [if_pos rfl, if_pos rfl, ← pow_mul, ← pow_succ]
  have hsquare : toPoly (bitPowers c 8) * toPoly (bitPowers c 8) =
      toPoly (bitPowers (c <<< 1) 8) + if c.getLsbD 7 then X ^ 256 else 0 := by
    rw [← pow_two, toPoly_bitPowers _ le_rfl, CharTwo.sum_sq, Finset.sum_congr rfl fun j _ => hsq j,
      Finset.sum_range_succ, ← toPoly_bitPowers_shiftLeft]
    rfl
  apply toPoly_injective
  rw [toPoly_mulElem, hsquare, add_modByMonic, elem_mod, nextCoeffs, toPoly_bitPowers_xor]
  cases c.getLsbD 7
  · rw [cond_false, if_neg Bool.false_ne_true, zero_modByMonic, bitPowers_zero, toPoly_zero]
  · rw [cond_true, if_pos rfl, toPoly_bitPowers_feedback]

theorem deg2Entry_eq_bitPowers (i : Nat) : deg2Entry i = bitPowers (nextCoeffs^[i] 1) 8 := by
  induction i with
  | zero => decide
  | succ i ih => rw [deg2Entry, ih, mulElem_bitPowers_self, Function.iterate_succ_apply']

theorem nextCoeffs_iterate_32 : nextCoeffs^[32] 1 = 0x5D := by decide

set_option maxRecDepth 4000 in
/-- The feedback register has the period 255. -/
theorem nextCoeffs_iterate_255 : nextCoeffs^[255] 1 = 1 := by decide

theorem deg2_32 : deg2 32 = 0x10000000000010112 :=
  (deg2Entry_eq_bitPowers 32).trans (by rw [nextCoeffs_iterate_32]; decide)

/-- The last entry is entry 0 again. -/
theorem deg2_255 : deg2 255 = 0x2 := (deg2Entry_eq_bitPowers 255).trans (by rw [nextCoeffs_iterate_255]; decide)

/-- The recurrence of the table, read through its 8-bit index. -/
theorem deg2_succ {i : Nat} (h : i + 1 < 256) :
    deg2 (BitVec.ofNat 8 (i + 1)) = mulElem (deg2 (BitVec.ofNat 8 i)) (deg2 (BitVec.ofNat 8 i)) := by
  rw [deg2_of_lt h, deg2_of_lt (Nat.lt_of_succ_lt h), deg2Entry]

/-- Settles O16: the recurrence, its closed form, and the listed entries from their eight coefficients. -/
theorem powerTableContents : Obligations.PowerTableContents := by
  refine ⟨rfl, fun i hi1 hi => ?_, fun i => toPoly_deg2Entry i.toNat, ?_, ?_, ?_, ?_, ?_, deg2_32, deg2_255⟩
  · obtain ⟨k, rfl⟩ := Nat.exists_eq_add_of_le' hi1
    exact deg2_succ (by omega)
  · exact (deg2Entry_eq_bitPowers 1).trans (by decide)
  · exact (deg2Entry_eq_bitPowers 5).trans (by decide)
  · exact (deg2Entry_eq_bitPowers 7).trans (by decide)
  · exact (deg2Entry_eq_bitPowers 8).trans (by decide)
  · exact (deg2Entry_eq_bitPowers 9).trans (by decide)

/-- Settles O17: the table's recurrence, and its last entry being its first. -/
theorem powerTableSquares : Obligations.PowerTableSquares := by
  refine ⟨fun K hK => (deg2_succ (by omega)).symm, ?_⟩
  rw [deg2_255]
  exact (deg2_succ (i := 0) (by decide)).symm

/-! ### The indices JUMP reads (R66, R67, R69) -/

theorem mem_jumpReads {e n base i : Nat} : i ∈ jumpReads e n base ↔ ∃ k < n, e.testBit k ∧ k + base = i := by
  simp [jumpReads, and_assoc]

theorem jumpReads_bounds {e n base i : Nat} (h : i ∈ jumpReads e n base) : base ≤ i ∧ i < n + base := by
  obtain ⟨k, hk, -, rfl⟩ := mem_jumpReads.1 h
  omega

theorem length_jumpReads (e n base : Nat) : (jumpReads e n base).length = (List.range n).countP e.testBit := by
  rw [jumpReads, List.length_map, List.countP_eq_length_filter]

theorem jumpReads_zero (n base : Nat) : jumpReads 0 n base = [] := by simp [jumpReads]

theorem jumpReads_two_pow {k n : Nat} (hk : k < n) (base : Nat) : jumpReads (2 ^ k) n base = [k + base] := by
  have hfilter : (List.range n).filter (2 ^ k).testBit = [k] := by
    have hbit : (2 ^ k).testBit = (· == k) := by
      funext i
      rw [Nat.testBit_two_pow, beq_eq_decide, decide_eq_decide]
      exact eq_comm
    rw [hbit, List.filter_beq, List.count_range, if_pos hk, List.replicate_one]
  rw [jumpReads, hfilter, List.map_singleton]

theorem length_jumpReads_allOnes (n base : Nat) : (jumpReads (2 ^ n - 1) n base).length = n := by
  rw [length_jumpReads, List.countP_eq_length.2 fun i hi => ?_, List.length_range]
  simpa [Nat.testBit_two_pow_sub_one] using hi

/-- The lowest binary digit and the rest count separately. -/
theorem count_bits_bit (b : Bool) (m : Nat) : (Nat.bit b m).bits.count true = m.bits.count true + b.toNat := by
  by_cases h : m = 0 → b = true
  · rw [Nat.bits_append_bit m b h, List.count_cons]
    cases b <;> rfl
  · obtain ⟨rfl, hb⟩ := Classical.not_imp.1 h
    rw [Bool.eq_false_of_not_eq_true hb]
    rfl

theorem mod_two_pow_succ_eq_bit (e n : Nat) : e % 2 ^ (n + 1) = Nat.bit (e.testBit 0) (e / 2 % 2 ^ n) := by
  rw [pow_succ', Nat.mod_mul, Nat.bit_val, Nat.testBit_zero, add_comm]
  rcases Nat.mod_two_eq_zero_or_one e with h | h <;> simp [h]

/-- The set bits of `e` below n are the digits 1 of e mod 2^n. -/
theorem countP_testBit_range (e n : Nat) : (List.range n).countP e.testBit = (e % 2 ^ n).bits.count true := by
  induction n generalizing e with
  | zero => simp [Nat.mod_one]
  | succ n ih =>
    have hshift : e.testBit ∘ Nat.succ = (e / 2).testBit := funext fun i => Nat.testBit_succ e i
    rw [List.range_succ_eq_map, List.countP_cons, List.countP_map, hshift, ih, mod_two_pow_succ_eq_bit, count_bits_bit]
    cases e.testBit 0 <;> rfl

/-- Settles O19: an index read lies between the base and base + n, and ARG_W is at most 224. -/
theorem jumpIndicesStayInTheTable : Obligations.JumpIndicesStayInTheTable := by
  intro b e
  have hargW := argW_le b
  refine ⟨fun i hi => ?_, fun i hi => ?_, fun i hi => ?_⟩ <;>
  · have := jumpReads_bounds hi
    omega

/-- Settles O20: one index is read for each set bit, and JUMP is the fold over them. -/
theorem jumpCostsOneProductPerSetBit : Obligations.JumpCostsOneProductPerSetBit := fun s e n base =>
  ⟨(length_jumpReads e n base).trans (countP_testBit_range e n), jump_eq_foldl_reads s e n base⟩

/-! ### JUMP as a power of x (R66, R68) -/

theorem toPoly_jump_of_lt (s : Elem) {e n base : Nat} (he : e < 2 ^ n) (h : n + base ≤ 256) :
    toPoly (jump s e n base) = (toPoly s * X ^ (e * 2 ^ base)) %ₘ polyP := by
  rw [toPoly_jump s e n base h, Nat.mod_eq_of_lt he]

theorem toPoly_jump_one {e n base : Nat} (he : e < 2 ^ n) (h : n + base ≤ 256) :
    toPoly (jump 1 e n base) = powX (e * 2 ^ base) := by
  rw [toPoly_jump_of_lt 1 he h, toPoly_one_elem, one_mul, powX]

theorem jump_zero (s : Elem) (n base : Nat) : jump s 0 n base = s := by
  rw [jump_eq_foldl_reads, jumpReads_zero, List.foldl_nil]

/-- A jump from 1 by a power of x below the modulus' degree is that power of x. -/
theorem jump_one_eq_shiftLeft {e n base k : Nat} (he : e < 2 ^ n) (h : n + base ≤ 256) (hk : e * 2 ^ base = k)
    (hlt : k < 255) : jump 1 e n base = (1 <<< k : Nat) := by
  apply toPoly_injective
  rw [toPoly_jump_one he h, hk, powX, ← toPoly_one_shiftLeft hlt, elem_mod]

/-- A jump from 1 by the exponent 1 reads its base entry. -/
theorem jump_one_one {n base : Nat} (hn : 0 < n) (h : n + base ≤ 256) :
    jump 1 1 n base = deg2 (BitVec.ofNat 8 base) := by
  apply toPoly_injective
  rw [toPoly_jump_one (Nat.one_lt_two_pow hn.ne') h, one_mul, deg2_of_lt (by omega), toPoly_deg2Entry]

/-- Settles O18: the power of x that JUMP multiplies by, the indices it reads, and the examples from these. -/
theorem jumpMultipliesByAPowerOfX : Obligations.JumpMultipliesByAPowerOfX := by
  refine ⟨fun s e n base he h => ⟨toPoly_jump_of_lt s he h, toPoly_jump_one he h⟩,
    fun s n base => ⟨jump_zero s n base, jumpReads_zero n base⟩,
    fun n base => ⟨fun k hk => jumpReads_two_pow hk base, length_jumpReads_allOnes n base⟩, ?_, ?_, ?_⟩
  · exact jump_one_eq_shiftLeft (k := 5) (by decide) (by decide) (by decide) (by decide)
  · exact (jump_one_one (by decide) (by decide)).trans deg2_32
  · exact jump_one_eq_shiftLeft (k := 32) (by decide) (by decide) (by decide) (by decide)

theorem jump_jump (s : Elem) {e1 e2 n1 n2 n b : Nat} (he1 : e1 < 2 ^ n1) (he2 : e2 < 2 ^ n2) (he : e1 + e2 < 2 ^ n)
    (h1 : n1 + b ≤ 256) (h2 : n2 + b ≤ 256) (h : n + b ≤ 256) :
    jump (jump s e1 n1 b) e2 n2 b = jump s (e1 + e2) n b := by
  apply toPoly_injective
  rw [toPoly_jump_of_lt _ he2 h2, toPoly_jump_of_lt s he1 h1, toPoly_jump_of_lt s he h, mod_mul_left, mul_assoc,
    ← pow_add, ← add_mul]

theorem jump_base_succ (s : Elem) {e n b : Nat} (h : n + b + 1 ≤ 256) :
    jump s e n (b + 1) = jump s (2 * e) (n + 1) b := by
  have hexp : e % 2 ^ n * 2 ^ (b + 1) = 2 * e % 2 ^ (n + 1) * 2 ^ b := by
    rw [pow_succ' 2 n, Nat.mul_mod_mul_left, pow_succ]
    ring
  apply toPoly_injective
  rw [toPoly_jump _ _ _ _ (by omega), toPoly_jump _ _ _ _ (by omega), hexp]

theorem toPoly_jump_block_then_step (s : Elem) {e n : Nat} (he : e < 2 ^ n) (h : n + 5 ≤ 256) :
    toPoly (jump (jump s e n 5) 1 1 0) = (toPoly s * X ^ (32 * e + 1)) %ₘ polyP := by
  rw [toPoly_jump_of_lt _ (by decide) (by decide), toPoly_jump_of_lt s he h, mod_mul_left, mul_assoc, ← pow_add]
  congr 3
  omega

theorem mulElem_right_comm (a b c : Elem) : mulElem (mulElem a b) c = mulElem (mulElem a c) b := by
  apply toPoly_injective
  simp only [toPoly_mulElem, mod_mul_left]
  rw [mul_right_comm]

/-- Settles O21: the first three laws are laws of exponents, the last is that factors commute. -/
theorem jumpsCompose : Obligations.JumpsCompose := by
  refine ⟨fun s _ _ _ _ _ _ he1 he2 he h1 h2 h => jump_jump s he1 he2 he h1 h2 h,
    fun s _ _ _ h => jump_base_succ s h, fun s _ _ he h => toPoly_jump_block_then_step s he h,
    fun s e n base order hperm => ?_⟩
  rw [jump_eq_foldl_reads]
  exact hperm.foldl_eq' (fun _ _ _ _ _ => mulElem_right_comm _ _ _) s

end Sys2Proof
end

section
/-! The word table (42_word_table.md R70 to R74) and the command that reads it, NEXT_WV (43_generator.md R79).
TROM[v] stands for v·FB256, from which its contents, its words and its linearity follow. -/

namespace Sys2Proof

open Polynomial Machine

/-- A zero-extended vector, shifted by no more than the bits it gained. -/
theorem toPoly_zext_shiftLeft {w w' n : Nat} (v : BitVec w) (h : w + n ≤ w') :
    toPoly (v.setWidth w' <<< n) = X ^ n * toPoly v := by
  rw [toPoly_shiftLeft, toPoly_zext v (by omega)]
  intro i hi
  rw [BitVec.getLsbD_setWidth, BitVec.getLsbD_of_ge v i (by omega), Bool.and_false]

/-! ### The contents of TROM and where an entry is placed (R70, R74) -/

/-- A word at the weight x^(256+n) folds back to its entry, n bits up, while the entry stays below bit 256. -/
theorem toPoly_trom_shiftLeft (v : Word16) {n : Nat} (hn : n ≤ 208) :
    toPoly ((trom v).setWidth 256 <<< n) = (toPoly v * X ^ (256 + n)) %ₘ (X * polyP) := by
  have hentry : toPoly ((trom v).setWidth 256 <<< n) = toPoly v * X ^ n * toPoly fb256 := by
    rw [toPoly_zext_shiftLeft (trom v) (by omega), toPoly_trom, mul_left_comm, mul_assoc]
  rw [← reg_mod, hentry, ← fold_back, mul_assoc, ← pow_add, add_comm]

/-- Settles O22: an entry that is not shifted is the remainder itself. -/
theorem wordTableContents : Obligations.WordTableContents := by
  intro v
  have hplaced := toPoly_trom_shiftLeft v (Nat.zero_le 208)
  rwa [BitVec.shiftLeft_zero, toPoly_zext (trom v) (by omega), Nat.add_zero] at hplaced

/-- Settles O26: the placement of one entry, and NEXT_WV in packed form. -/
theorem wordTablePlacement : Obligations.WordTablePlacement :=
  ⟨fun v _ hk => (toPoly_trom_shiftLeft v (by omega)).symm, pack_advanceWords⟩

/-! ### The closed form (R71) -/

theorem clmul_fb256_bit (v : Word16) (i : Nat) : (clmul (v.setWidth 256) fb256).getLsbD i = (trom v).getLsbD i := by
  refine (toPoly_eq_iff _ _).1 ?_ i
  rw [toPoly_clmul, toPoly_zext v (by omega), toPoly_trom]

theorem trom_eq_clmul (v : Word16) : trom v = (clmul (v.setWidth 256) fb256).setWidth 48 := by
  apply BitVec.eq_of_getLsbD_eq
  intro i hi
  rw [BitVec.getLsbD_setWidth, clmul_fb256_bit, decide_eq_true hi, Bool.true_and]

/-- The four terms of FB256 are four shifts of the index. -/
theorem trom_eq_shifts (v : Word16) :
    trom v = (v.setWidth 48 <<< 1) ^^^ (v.setWidth 48 <<< 4) ^^^ (v.setWidth 48 <<< 8) ^^^ (v.setWidth 48 <<< 32) := by
  apply toPoly_injective
  have hshift {n : Nat} (hn : n ≤ 32) : toPoly (v.setWidth 48 <<< n) = X ^ n * toPoly v :=
    toPoly_zext_shiftLeft v (by omega)
  rw [toPoly_xor, toPoly_xor, toPoly_xor, hshift (by decide), hshift (by decide), hshift (by decide), hshift le_rfl,
    toPoly_trom, toPoly_fb256]
  ring

/-- Each bit of an entry collects the index bits that the four shifts bring there. -/
theorem trom_bit (v : Word16) {i : Nat} (hi : i < 48) :
    (trom v).getLsbD i = ((!decide (i < 1) && v.getLsbD (i - 1)) ^^ (!decide (i < 4) && v.getLsbD (i - 4)) ^^
      (!decide (i < 8) && v.getLsbD (i - 8)) ^^ (!decide (i < 32) && v.getLsbD (i - 32))) := by
  have hshift (n : Nat) : (v.setWidth 48 <<< n).getLsbD i = (!decide (i < n) && v.getLsbD (i - n)) := by
    simp [hi]
  rw [trom_eq_shifts]
  simp only [BitVec.getLsbD_xor, hshift]

/-- Word 2 of an entry is the index. -/
theorem entryWord_trom_two (v : Word16) : entryWord (trom v) 2 = v := by
  apply BitVec.eq_of_getLsbD_eq
  intro i hi
  rw [entry_bit _ _ _ hi, trom_bit v (by omega), v.getLsbD_of_ge _ (by omega), v.getLsbD_of_ge _ (by omega),
    v.getLsbD_of_ge _ (by omega)]
  simp

/-- The gap between the low terms of FB256 and x^32 leaves eight bits of an entry clear. -/
theorem trom_gap (v : Word16) : (trom v).extractLsb' 24 8 = 0 := by
  apply BitVec.eq_of_getLsbD_eq
  intro i hi
  rw [BitVec.getLsbD_extractLsb', trom_bit v (by omega), v.getLsbD_of_ge _ (by omega), v.getLsbD_of_ge _ (by omega),
    v.getLsbD_of_ge _ (by omega)]
  simp [show 24 + i < 32 by omega]

theorem trom_bit_zero (v : Word16) : (trom v).getLsbD 0 = false := trom_bit v (by decide)

/-- Settles O23: the closed form and its consequences; the examples are evaluated in the closed form. -/
theorem wordTableClosedForm : Obligations.WordTableClosedForm := by
  refine ⟨fun v => ⟨trom_eq_clmul v, trom_eq_shifts v, entryWord_trom_two v, trom_gap v, trom_bit_zero v⟩, ?_⟩
  simp only [trom_eq_shifts]
  decide

/-! ### The sum over the bits of the index (R72, R73) -/

theorem trom_xor (a b : Word16) : trom (a ^^^ b) = trom a ^^^ trom b := by
  apply toPoly_injective
  rw [toPoly_xor, toPoly_trom, toPoly_trom, toPoly_trom, toPoly_xor, add_mul]

/-- The XOR of the entries of the set bits below n. -/
theorem toPoly_foldl_trom (v : Word16) {n : Nat} (hn : n ≤ 16) :
    toPoly ((List.range n).foldl (fun t k => bif v.getLsbD k then t ^^^ trom (1 <<< k) else t) 0) =
      (∑ k ∈ Finset.range n, if v.getLsbD k then (X : (ZMod 2)[X]) ^ k else 0) * toPoly fb256 := by
  induction n with
  | zero => rw [List.range_zero, List.foldl_nil, Finset.range_zero, Finset.sum_empty, zero_mul]; exact toPoly_zero
  | succ n ih =>
    rw [List.range_succ, List.foldl_append, List.foldl_cons, List.foldl_nil, Finset.sum_range_succ, add_mul,
      ← ih (by omega)]
    cases v.getLsbD n
    · simp
    · rw [cond_true, if_pos rfl, toPoly_xor, toPoly_trom, toPoly_one_shiftLeft (by omega)]

/-- Settles O25: v·FB256 is additive in v, and v is the sum of its bits. -/
theorem wordTableIsLinear : Obligations.WordTableIsLinear := by
  refine ⟨trom_xor, fun v => toPoly_injective ?_⟩
  rw [toPoly_trom, toPoly_foldl_trom v le_rfl]
  rfl

/-- The test of BUILD_TROM's inner loop selects the indices with bit b set. -/
theorem buildTrom_selects (j : Word16) {b : Nat} (hb : b < 16) :
    (decide (2 ^ b ≤ j.toNat) && (j &&& BitVec.ofNat 16 (2 ^ b)) != 0) = j.getLsbD b := by
  have hpow : BitVec.ofNat 16 (2 ^ b) = BitVec.twoPow 16 b := BitVec.eq_of_toNat_eq (by simp)
  have hpos : BitVec.twoPow 16 b ≠ 0#16 := fun h => by
    simpa [hb] using congrArg (BitVec.getLsbD · b) h
  rw [hpow, BitVec.and_twoPow]
  cases hj : j.getLsbD b
  · simp
  · simp [hpos, Nat.ge_two_pow_of_testBit hj]

theorem fb256_bit_of_ge {i : Nat} (h : 33 ≤ i) : fb256.getLsbD i = false := by
  rw [fb256_bits]
  simp only [Finset.mem_insert, Finset.mem_singleton, decide_eq_false_iff_not]
  omega

/-- BUILD_TROM's accumulator after b of its sixteen turns. -/
theorem toPoly_fb256_shiftLeft {b : Nat} (hb : b < 16) :
    toPoly ((fb256.setWidth 48 : Entry48) <<< b) = X ^ b * toPoly fb256 := by
  rw [toPoly_shiftLeft, toPoly_setWidth_of_bits _ fun i hi => fb256_bit_of_ge (by omega)]
  intro i hi
  rw [BitVec.getLsbD_setWidth, fb256_bit_of_ge (by omega), Bool.and_false]

/-- n turns of BUILD_TROM add to an entry one shift of FB256 for each of the n index bits they see. -/
theorem toPoly_buildTromTurns (v : Word16) {n b : Nat} (T : Word16 → Entry48) (h : b + n ≤ 16) :
    toPoly (buildTromTurns n b (fb256.setWidth 48 <<< b) T v) =
      toPoly (T v) +
        (∑ k ∈ Finset.range n, if v.getLsbD (b + k) then (X : (ZMod 2)[X]) ^ (b + k) else 0) * toPoly fb256 := by
  induction n generalizing b T with
  | zero => simp [buildTromTurns]
  | succ n ih =>
    rw [buildTromTurns, ← BitVec.shiftLeft_add, ih _ (by omega), Finset.sum_range_succ', buildTrom_selects v (by omega)]
    cases v.getLsbD b
    · simp [Nat.add_assoc, Nat.add_comm 1]
    · simp only [cond_true, toPoly_xor, toPoly_fb256_shiftLeft (show b < 16 by omega), Nat.add_zero, if_true,
        Nat.add_assoc, Nat.add_comm 1]
      ring

/-- Settles O24: sixteen turns see every bit of the index. -/
theorem wordTableConstruction : Obligations.WordTableConstruction := by
  intro v
  apply toPoly_injective
  have hturns := toPoly_buildTromTurns v (n := 16) (b := 0) (fun _ => 0) le_rfl
  simp only [BitVec.shiftLeft_zero, toPoly_zero, zero_add] at hturns
  rw [buildTrom, hturns, toPoly_trom]
  rfl

/-! ### NEXT_WV (R79) -/

/-- The first twelve words are copied two positions down. -/
theorem advanceWords_copies (w : WordFile) {k : Nat} (h : k < 12) : (advanceWords w)[k] = w[k + 2] := by
  interval_cases k <;> rfl

theorem advanceWords_12 (w : WordFile) : (advanceWords w)[12] = w[14] ^^^ w[0] :=
  congrArg (w[14] ^^^ ·) (entryWord_trom_two w[0])

theorem advanceWords_13 (w : WordFile) : (advanceWords w)[13] = w[15] ^^^ w[1] ^^^ entryWord (trom w[0]) 1 :=
  congrArg (w[15] ^^^ · ^^^ entryWord (trom w[0]) 1) (entryWord_trom_two w[1])

theorem advanceWords_14 (w : WordFile) : (advanceWords w)[14] = entryWord (trom w[1]) 1 ^^^ entryWord (trom w[0]) 0 :=
  congrArg (· ^^^ entryWord (trom w[0]) 0) (BitVec.zero_xor (x := entryWord (trom w[1]) 1))

theorem advanceWords_15 (w : WordFile) : (advanceWords w)[15] = entryWord (trom w[1]) 0 :=
  BitVec.zero_xor

/-- Settles O30: the words of the advance one by one, and the advance as a product modulo x·P. -/
theorem nextWvReturnsTheTopWords : Obligations.NextWvReturnsTheTopWords := by
  intro s arg
  have hmul := toPoly_pack_advanceWords s.wreg
  exact ⟨advanceWords s.wreg, exec_nextWv arg s, hmul, fun h0 => (logical_of_mul 32 h0 hmul).2,
    fun _ hk => advanceWords_copies s.wreg hk, advanceWords_12 s.wreg, advanceWords_13 s.wreg, advanceWords_14 s.wreg,
    advanceWords_15 s.wreg⟩

end Sys2Proof
end

section
/-! The edge that ends an execution (43_generator.md R75, 60_exceptions.md R88) and GET_MIN and GET_MAX
(43_generator.md R81, R82). -/

namespace Sys2Proof.Machine

/-! ### From a command word to the command that runs -/

theorem decode_eq_ok_iff {argW cw : Nat} {i : Instr} :
    decode argW cw = .ok i ↔ cw < 2 ^ (argW + 4) ∧ decodeCommand (Command.ofWord cw) = i := by
  unfold decode
  split
  · next h => simp [h]
  · next h => simp [h]

/-- The argument of a word that fits the command port fits the wires of `cmd_arg` (R47). -/
theorem ofWord_arg_lt {argW cw : Nat} (h : cw < 2 ^ (argW + 4)) : (Command.ofWord cw).arg < 2 ^ argW := by
  rw [← word_lt_iff, word_ofWord]
  exact h

theorem portCommand_of_lt {b : Build} {c : Command} (h : c.arg < 2 ^ b.argW) : portCommand b c.op c.arg = c :=
  congrArg (Command.mk c.op) (Nat.mod_eq_of_lt h)

/-! ### The step that ends an execution -/

theorem step_busy_last_of_decode {s : State} {c : Command} {i : Instr} (hr : s.pins.rst = false)
    (hq : s.seq = .busy c 0) (hd : decode s.build.argW c.word = .ok i) : step s = exec i s.tick := by
  obtain ⟨-, hi⟩ := decode_eq_ok_iff.1 hd
  rw [step_busy_last hr hq, ← hi, ofWord_word]

@[simp] theorem latchWord_build (s : State) (cw : Nat) : (s.latchWord cw).build = s.build := rfl

@[simp] theorem latchWord_pins (s : State) (cw : Nat) : (s.latchWord cw).pins = Pins.quiet := rfl

/-- A word that fits the command port is latched whole. -/
theorem latchWord_seq {s : State} {cw : Nat} (h : cw < 2 ^ (s.build.argW + 4)) :
    (s.latchWord cw).seq = .busy (Command.ofWord cw) 0 :=
  congrArg (Sequencer.busy · 0) (portCommand_of_lt (ofWord_arg_lt h))

/-- The edge after latching consumes the quiet pins placed for it, so the inputs to come are the given state's. -/
theorem latchWord_tick {s : State} {cw : Nat} (h : cw < 2 ^ (s.build.argW + 4)) :
    (s.latchWord cw).tick = { s with seq := .busy (Command.ofWord cw) 0, draws := s.draws + 1 } :=
  congrArg (fun q => { s with seq := q, draws := s.draws + 1 }) (latchWord_seq h)

/-- Settles O6: the latched word decodes to the command the last edge runs, and `withFetchWord` latches a word. -/
theorem stepRunsTheDecodedCommand : Obligations.StepRunsTheDecodedCommand := by
  refine ⟨fun s c i hr hq hd => step_busy_last_of_decode hr hq hd, fun s nbits w i hd => ?_⟩
  obtain ⟨hfit, -⟩ := decode_eq_ok_iff.1 hd
  rw [State.withFetchWord, ← latchWord_tick hfit]
  exact step_busy_last_of_decode (congrArg Pins.rst (latchWord_pins s _)) (latchWord_seq hfit)
    (by rwa [latchWord_build, word_ofWord])

/-! ### GET_MIN and GET_MAX -/

/-- Settles O32: each command only responds, with its bound as the data. -/
theorem boundsAreConstant : Obligations.BoundsAreConstant := fun s arg =>
  ⟨exec_getMin arg s, exec_getMax arg s⟩

end Sys2Proof.Machine
end

section
/-! The model's arithmetic, its commands, its steps and its textual form: the proofs about each stand in a section of
their own. -/

-- Each proof is elaborated before the next one starts: the tests above keep so many threads waiting that proofs
-- elaborated side by side would exceed the check's memory limit. Nothing here depends on the option.
set_option deprecated.oldSectionVars true

section
/-! The order of x modulo P (40_field_arith.md R63, 10_state.md R23): x^k is 1 modulo P exactly when 2^255 - 1 divides
k. By the prime factors of 2^255 - 1, this takes one power of x for each of them, evaluated below. -/

namespace Sys2Proof

open Polynomial Machine

/-! ### Powers of x from the bits of the exponent

x^(2^i) is a sum of the powers x, x^2, x^4, ..., x^128 (`deg2Entry_eq_bitPowers`), so a product with it is a sum of at
most eight shifts, which one fold of its top bits reduces modulo P. -/

/-- The product of `a` and the first n terms of `bitPowers c`, not reduced: at most 384 bits. -/
def sparseProduct (a : Elem) (c : BitVec 8) : Nat → Scratch
  | 0 => 0
  | j + 1 => sparseProduct a c j ^^^ bif c.getLsbD j then a.setWidth 512 <<< 2 ^ j else 0

/-- The bits from 255 up folded back once: they leave at x^255, and come in at x^31, x^7, x^3 and 1. -/
def foldOnce (v : Scratch) : Scratch :=
  v ^^^ v >>> 255 <<< 255 ^^^ v >>> 255 <<< 31 ^^^ v >>> 255 <<< 7 ^^^ v >>> 255 <<< 3 ^^^ v >>> 255

/-- A product of at most 384 bits modulo P. -/
def foldTop (v : Scratch) : Elem := (foldOnce v).setWidth 255

/-- n turns of square-and-multiply, least significant bit of the exponent `e` first: `c` holds the coefficients of the
power of x that the next bit stands for. -/
def powLoop : Nat → Nat → BitVec 8 → Elem → Elem
  | 0, _, _, acc => acc
  | n + 1, e, c, acc =>
    powLoop n (e / 2) (nextCoeffs c) (bif e.testBit 0 then foldTop (sparseProduct acc c 8) else acc)

/-- The prime factors of 2^255 - 1. -/
def orderFactors : List Nat :=
  [7, 31, 103, 151, 2143, 11119, 106591, 131071, 949111, 9520972806333758431, 5702451577639775545838643151]

set_option maxRecDepth 100000 in
set_option exponentiation.threshold 512 in
/-- The evaluation: x^(2^255 - 1) is 1 and x^((2^255 - 1)/q) is not, for each prime factor q. -/
theorem powLoop_orderFactors : powLoop 255 (2 ^ 255 - 1) 1 1 = 1 ∧
    ∀ q ∈ orderFactors, powLoop 255 ((2 ^ 255 - 1) / q) 1 1 ≠ 1 := by
  decide

theorem sparseProduct_bit_of_ge (a : Elem) (c : BitVec 8) {n i : Nat} (hn : n ≤ 8) (hi : 384 ≤ i) :
    (sparseProduct a c n).getLsbD i = false := by
  induction n with
  | zero => exact BitVec.getLsbD_zero
  | succ n ih =>
    have hpow : 2 ^ n ≤ 2 ^ 7 := Nat.pow_le_pow_right (by decide) (by omega)
    rw [sparseProduct, BitVec.getLsbD_xor, ih (by omega), Bool.false_xor]
    cases c.getLsbD n
    · exact BitVec.getLsbD_zero
    · rw [cond_true, BitVec.getLsbD_shiftLeft, BitVec.getLsbD_setWidth, BitVec.getLsbD_of_ge a _ (by omega)]
      simp

theorem toPoly_sparseProduct (a : Elem) (c : BitVec 8) {n : Nat} (hn : n ≤ 8) :
    toPoly (sparseProduct a c n) = toPoly a * toPoly (bitPowers c n) := by
  induction n with
  | zero => rw [sparseProduct, bitPowers, toPoly_zero, toPoly_zero, mul_zero]
  | succ n ih =>
    have hpow : 2 ^ n ≤ 2 ^ 7 := Nat.pow_le_pow_right (by decide) (by omega)
    rw [sparseProduct, bitPowers, toPoly_xor, toPoly_xor, mul_add, ih (by omega)]
    cases c.getLsbD n
    · rw [cond_false, cond_false, toPoly_zero, toPoly_zero, mul_zero]
    · rw [cond_true, cond_true, toPoly_zext_shiftLeft a (by omega), toPoly_one_shiftLeft (by omega),
        mul_comm (toPoly a) (X ^ _)]

theorem pentanomial_mul (n : Nat) (p : (ZMod 2)[X]) :
    X ^ n * p + X ^ 31 * p + X ^ 7 * p + X ^ 3 * p + p = (X ^ n + X ^ 31 + X ^ 7 + X ^ 3 + 1) * p := by
  simp only [add_mul, one_mul]

theorem polyP_mul (p : (ZMod 2)[X]) : X ^ 255 * p + X ^ 31 * p + X ^ 7 * p + X ^ 3 * p + p = polyP * p := by
  unfold polyP
  exact pentanomial_mul 255 p

section Fold

variable {v : Scratch} (hv : ∀ i, 384 ≤ i → v.getLsbD i = false)
include hv

theorem topBits_of_ge {i : Nat} (hi : 129 ≤ i) : (v >>> 255).getLsbD i = false := by
  rw [BitVec.getLsbD_ushiftRight, hv _ (by omega)]

theorem toPoly_topBits_shiftLeft {k : Nat} (hk : k ≤ 255) : toPoly (v >>> 255 <<< k) = X ^ k * toPoly (v >>> 255) :=
  toPoly_shiftLeft _ _ fun _ hi => topBits_of_ge hv (by omega)

/-- Folding adds a multiple of P. -/
theorem toPoly_foldOnce : toPoly (foldOnce v) = toPoly v + polyP * toPoly (v >>> 255) := by
  rw [foldOnce, ← polyP_mul]
  simp only [toPoly_xor, toPoly_topBits_shiftLeft hv le_rfl, toPoly_topBits_shiftLeft hv (show 31 ≤ 255 by decide),
    toPoly_topBits_shiftLeft hv (show 7 ≤ 255 by decide), toPoly_topBits_shiftLeft hv (show 3 ≤ 255 by decide),
    add_assoc]

/-- From bit 255 on, the bits that leave cancel those that were there, and none comes in. -/
theorem foldOnce_bit_of_ge {i : Nat} (hi : 255 ≤ i) : (foldOnce v).getLsbD i = false := by
  have hlow {k : Nat} (hk : k ≤ 31) : (v >>> 255 <<< k).getLsbD i = false := by
    rw [BitVec.getLsbD_shiftLeft, topBits_of_ge hv (by omega), Bool.and_false]
  have htop : (v >>> 255 <<< 255).getLsbD i = v.getLsbD i := by
    rw [BitVec.getLsbD_shiftLeft, BitVec.getLsbD_ushiftRight, Nat.add_sub_cancel' hi]
    by_cases h : i < 512
    · simp [h, hi]
    · rw [v.getLsbD_of_ge i (by omega), Bool.and_false]
  simp only [foldOnce, BitVec.getLsbD_xor, htop, hlow le_rfl, hlow (show 7 ≤ 31 by decide),
    hlow (show 3 ≤ 31 by decide), topBits_of_ge hv (show 129 ≤ i by omega), Bool.xor_self]

theorem toPoly_foldTop : toPoly (foldTop v) = toPoly v %ₘ polyP := by
  rw [← elem_mod, foldTop, toPoly_setWidth_of_bits _ fun i hi => foldOnce_bit_of_ge hv hi, toPoly_foldOnce hv,
    add_modByMonic, (modByMonic_eq_zero_iff_dvd polyP_monic).2 (dvd_mul_right _ _), add_zero]

end Fold

theorem foldTop_sparseProduct (a : Elem) (c : BitVec 8) :
    foldTop (sparseProduct a c 8) = mulElem a (bitPowers c 8) := by
  apply toPoly_injective
  rw [toPoly_foldTop fun i hi => sparseProduct_bit_of_ge a c le_rfl hi, toPoly_sparseProduct a c le_rfl, toPoly_mulElem]

/-- Square-and-multiply from the power x^(2^i) on. -/
theorem toPoly_powLoop (n e i : Nat) (acc : Elem) :
    toPoly (powLoop n e (nextCoeffs^[i] 1) acc) = (toPoly acc * X ^ (e % 2 ^ n * 2 ^ i)) %ₘ polyP := by
  induction n generalizing e i acc with
  | zero => rw [powLoop, pow_zero, Nat.mod_one, zero_mul, pow_zero, mul_one, elem_mod]
  | succ n ih =>
    rw [powLoop, ← Function.iterate_succ_apply' nextCoeffs i, ih, mod_two_pow_succ_eq_bit, Nat.bit_val]
    cases e.testBit 0
    · rw [cond_false]
      congr 3
      simp only [Bool.toNat_false, Nat.succ_eq_add_one]
      ring
    · rw [cond_true, foldTop_sparseProduct, ← deg2Entry_eq_bitPowers, toPoly_mulElem, toPoly_deg2Entry, powX,
        mod_mul_right, mod_mul_left, mul_assoc, ← pow_add]
      congr 3
      simp only [Bool.toNat_true, Nat.succ_eq_add_one]
      ring

theorem powLoop_eq_one_iff {e : Nat} (he : e < 2 ^ 255) : powLoop 255 e 1 1 = 1 ↔ powX e = powX 0 := by
  have hpow : toPoly (powLoop 255 e 1 1) = powX e := by
    have h := toPoly_powLoop 255 e 0 1
    rwa [toPoly_one_elem, one_mul, Nat.mod_eq_of_lt he, pow_zero, mul_one, Function.iterate_zero_apply] at h
  have hone : toPoly (1 : Elem) = powX 0 := by rw [powX, pow_zero, ← toPoly_one_elem, elem_mod]
  rw [← hpow, ← hone]
  exact ⟨congrArg toPoly, toPoly_injective⟩

/-! ### The factors are prime -/

/-- g^e modulo m by square-and-multiply, for an exponent of at most n bits. -/
def powMod (m : Nat) : Nat → Nat → Nat → Nat
  | 0, _, _ => 1 % m
  | n + 1, g, e => (bif e.testBit 0 then g else 1) * powMod m n (g * g % m) (e / 2) % m

theorem powMod_eq (m n g e : Nat) (he : e < 2 ^ n) : powMod m n g e = g ^ e % m := by
  induction n generalizing g e with
  | zero =>
    obtain rfl : e = 0 := by simpa using he
    rw [powMod, pow_zero]
  | succ n ih =>
    have hsplit : g ^ e = (bif e.testBit 0 then g else 1) * (g * g) ^ (e / 2) := by
      conv_lhs => rw [← Nat.mod_add_div e 2, pow_add, pow_mul, pow_two]
      rw [Nat.testBit_zero]
      obtain h | h := Nat.mod_two_eq_zero_or_one e <;> simp [h]
    rw [powMod, ih _ _ (by omega), ← Nat.pow_mod, Nat.mul_mod_mod, ← hsplit]

/-- Lucas' test: `g` generates the units modulo `p`, given the prime factors of p - 1. -/
theorem prime_of_generator {p g n : Nat} (factors : List Nat) (hprime : ∀ q ∈ factors, q.Prime)
    (hprod : factors.prod = p - 1) (hlt : p - 1 < 2 ^ n) (hone : powMod p n g (p - 1) = 1 % p)
    (hne : ∀ q ∈ factors, powMod p n g ((p - 1) / q) ≠ 1 % p) : p.Prime := by
  have hpow {e : Nat} (he : e ≤ p - 1) : (g : ZMod p) ^ e = 1 ↔ powMod p n g e = 1 % p := by
    rw [powMod_eq p n g e (by omega)]
    exact_mod_cast ZMod.natCast_eq_natCast_iff' (g ^ e) 1 p
  refine lucas_primality p g ((hpow le_rfl).2 hone) fun q hq hdvd h => ?_
  have hmem : q ∈ factors :=
    mem_list_primes_of_dvd_prod hq.prime (fun r hr => (hprime r hr).prime) (hprod ▸ hdvd)
  exact hne q hmem ((hpow (Nat.div_le_self _ _)).1 h)

theorem prime_522130351 : Nat.Prime 522130351 :=
  prime_of_generator (g := 3) (n := 30) [2, 3, 5, 5, 7, 17, 29251] (by norm_num) (by decide) (by decide) (by decide)
    (by decide)

theorem prime_2598660833 : Nat.Prime 2598660833 :=
  prime_of_generator (g := 3) (n := 32) [2, 2, 2, 2, 2, 47, 709, 2437] (by norm_num) (by decide) (by decide) (by decide)
    (by decide)

set_option maxRecDepth 4000 in
theorem prime_9520972806333758431 : Nat.Prime 9520972806333758431 :=
  prime_of_generator (g := 15) (n := 64) [2, 3, 5, 17, 257, 27953, 2598660833]
    (by simp only [List.forall_mem_cons, prime_2598660833]; norm_num) (by decide) (by decide) (by decide) (by decide)

set_option maxRecDepth 4000 in
theorem prime_5702451577639775545838643151 : Nat.Prime 5702451577639775545838643151 :=
  prime_of_generator (g := 3) (n := 93) [2, 3, 5, 5, 11, 17, 1163, 1471, 5197, 43793, 522130351]
    (by simp only [List.forall_mem_cons, prime_522130351]; norm_num) (by decide) (by decide) (by decide) (by decide)

theorem prime_of_mem_orderFactors : ∀ q ∈ orderFactors, q.Prime := by
  simp only [orderFactors, List.forall_mem_cons, prime_9520972806333758431, prime_5702451577639775545838643151]
  norm_num

theorem prod_orderFactors : orderFactors.prod = 2 ^ 255 - 1 := by decide

/-! ### The order of x, and what follows for steps, jumps and seeds -/

theorem powX_eq_iff_root (a b : Nat) :
    powX a = powX b ↔ AdjoinRoot.root polyP ^ a = AdjoinRoot.root polyP ^ b := by
  rw [powX, powX, ← sub_eq_zero, ← sub_modByMonic, modByMonic_eq_zero_iff_dvd polyP_monic, ← AdjoinRoot.mk_eq_mk,
    map_pow, map_pow, AdjoinRoot.mk_X]

/-- The order of x modulo P is 2^255 - 1. -/
theorem orderOf_root : orderOf (AdjoinRoot.root polyP) = 2 ^ 255 - 1 := by
  obtain ⟨hone, hne⟩ := powLoop_orderFactors
  have hroot {e : Nat} (he : e ≤ 2 ^ 255 - 1) : powLoop 255 e 1 1 = 1 ↔ AdjoinRoot.root polyP ^ e = 1 := by
    rw [powLoop_eq_one_iff (by omega), powX_eq_iff_root, pow_zero]
  refine orderOf_eq_of_pow_and_pow_div_prime (by decide) ((hroot le_rfl).1 hone) fun q hq hdvd h => ?_
  have hmem : q ∈ orderFactors := mem_list_primes_of_dvd_prod hq.prime
    (fun r hr => (prime_of_mem_orderFactors r hr).prime) (prod_orderFactors ▸ hdvd)
  exact hne q hmem ((hroot (Nat.div_le_self _ _)).2 h)

/-- Two powers of x agree modulo P exactly when their exponents agree modulo 2^255 - 1. -/
theorem powX_eq_iff (a b : Nat) : powX a = powX b ↔ a % (2 ^ 255 - 1) = b % (2 ^ 255 - 1) := by
  have hfinite : IsOfFinOrder (AdjoinRoot.root polyP) :=
    orderOf_pos_iff.1 (orderOf_root ▸ (by decide : 0 < 2 ^ 255 - 1))
  rw [powX_eq_iff_root, hfinite.pow_eq_pow_iff_modEq, orderOf_root, Nat.ModEq]

theorem toPoly_xs_iterate_one (n : Nat) : toPoly (xs^[n] (1 : Elem)) = powX n := by
  rw [toPoly_xs_iterate, toPoly_one_elem, mul_one, powX]

theorem xs_iterate_one_ne_zero (n : Nat) : xs^[n] (1 : Elem) ≠ 0 := by
  have hone : (1 : (ZMod 2)[X]) %ₘ polyP ≠ 0 := by
    rw [← toPoly_one_elem, elem_mod]
    exact toPoly_ne_zero (by decide)
  intro h
  have hpoly := toPoly_xs_iterate_one n
  rw [h, toPoly_zero, powX, ← one_mul (X ^ n)] at hpoly
  exact mul_pow_mod_ne_zero hone n hpoly.symm

theorem xss_iterate_shifted (n : Nat) (s : Elem) : xss^[n] (shifted s) = shifted (xs^[n] s) :=
  ((show Function.Semiconj shifted xs xss from shifted_xs).iterate_right n s).symm

theorem shifted_injective : Function.Injective shifted :=
  Function.LeftInverse.injective logical_shifted

/-- Settles O14: steps and jumps from 1 are powers of x, which the order of x tells apart. -/
theorem powersOfXHaveTheFullPeriod : Obligations.PowersOfXHaveTheFullPeriod := by
  have hxs (a b : Nat) : xs^[a] (1 : Elem) = xs^[b] (1 : Elem) ↔ a % (2 ^ 255 - 1) = b % (2 ^ 255 - 1) := by
    rw [← powX_eq_iff, ← toPoly_xs_iterate_one, ← toPoly_xs_iterate_one]
    exact ⟨congrArg toPoly, toPoly_injective⟩
  refine ⟨fun a b => ⟨xs_iterate_one_ne_zero a, hxs a b, ?_⟩, fun e e' n base he he' h => ?_⟩
  · rw [xss_iterate_shifted, xss_iterate_shifted, shifted_injective.eq_iff, hxs]
  · rw [← powX_eq_iff, ← toPoly_jump_one he h, ← toPoly_jump_one he' h]
    exact ⟨congrArg toPoly, toPoly_injective⟩

/-- Seeds below 2^ARG_W that lead to one state are equal: their exponents differ by a multiple of 2^255 - 1, which is
odd, and the seeds by less than it. -/
theorem seedState_injOn (b : Build) {v v' : Nat} (hv : v < 2 ^ b.argW) (hv' : v' < 2 ^ b.argW)
    (h : seedState b v = seedState b v') : v = v' := by
  have hfit : 2 ^ b.argW < 2 ^ 255 - 1 :=
    (Nat.pow_le_pow_right (by decide) (argW_le b)).trans_lt (by decide : 2 ^ 224 < 2 ^ 255 - 1)
  have hmod : powX (b.sepOffset.toNat + v * 2 ^ 32) = powX (b.sepOffset.toNat + v' * 2 ^ 32) := by
    have hpoly := congrArg toPoly h
    rwa [toPoly_seedState, toPoly_seedState, Nat.mod_eq_of_lt hv, Nat.mod_eq_of_lt hv'] at hpoly
  have hcoprime : Nat.gcd (2 ^ 255 - 1) (2 ^ 32) = 1 := by decide
  have hseeds : v ≡ v' [MOD 2 ^ 255 - 1] :=
    (Nat.ModEq.add_left_cancel' _ ((powX_eq_iff _ _).1 hmod)).cancel_right_of_coprime hcoprime
  exact hseeds.eq_of_lt_of_lt (hv.trans hfit) (hv'.trans hfit)

/-- Settles O15: distinct seeds give distinct logical states, and both registers determine theirs. -/
theorem distinctSeedsGiveDistinctStates : Obligations.DistinctSeedsGiveDistinctStates := by
  intro s s' t t' v v' hbuild hv hv' hne ht ht'
  have hstates : shifted (seedState s.build v) ≠ shifted (seedState s'.build v') := by
    rw [← hbuild]
    exact fun h => hne (seedState_injOn s.build hv hv' (shifted_injective h))
  cases ht
  cases ht'
  exact ⟨hstates, fun h => hstates (by simpa using congrArg pack h)⟩

end Sys2Proof
end

section
/-! Command words and their fields (30_encoding.md R47, R48, R50, R54): the decoder and the encoder are inverse on
the fields, and the fields are the word. -/

namespace Sys2Proof

/-! ### The decoder, opcode by opcode -/

/-- op[3] set selects the table's last row, which keeps op[2:0]. -/
theorem decodeCommand_high (low : BitVec 3) (arg : Nat) : decodeCommand ⟨1#1 ++ low, arg⟩ = .reservedHigh low arg := by
  have hbits : ∀ low : BitVec 3, 8 ≤ (1#1 ++ low).toNat ∧ (1#1 ++ low).setWidth 3 = low := by decide
  obtain ⟨hop, hlow⟩ := hbits low
  unfold decodeCommand
  split <;> simp_all

/-- Every opcode is one of 0x0 to 0x7, or 1 followed by three bits. -/
theorem op_cases (op : BitVec 4) :
    op ∈ ([0x0, 0x1, 0x2, 0x3, 0x4, 0x5, 0x6, 0x7] : List (BitVec 4)) ∨ ∃ low : BitVec 3, op = 1#1 ++ low := by
  revert op
  decide

/-- Decoding the fields of a command gives the command back. -/
theorem decodeCommand_encodeCommand (i : Instr) : decodeCommand (encodeCommand i) = i := by
  cases i with
  | reservedHigh low arg => exact decodeCommand_high low arg
  | seed | seedDefault | nextBs | nextWv | discard | getMin | getMax | reservedZero => rfl

/-- The fields of a decoded command are the fields it was decoded from: decoding drops no bit. -/
theorem encodeCommand_decodeCommand (c : Command) : encodeCommand (decodeCommand c) = c := by
  obtain ⟨op, arg⟩ := c
  obtain hop | ⟨low, rfl⟩ := op_cases op
  · fin_cases hop <;> rfl
  · rw [decodeCommand_high]; rfl

theorem encode_lt_iff (argW : Nat) (i : Instr) : encode i < 2 ^ (argW + 4) ↔ i.wellFormed argW = true := by
  rw [Instr.wellFormed, decide_eq_true_iff]
  exact word_lt_iff argW (encodeCommand i)

theorem encode_decodeCommand_ofWord (w : Nat) : encode (decodeCommand (Command.ofWord w)) = w := by
  rw [encode, encodeCommand_decodeCommand, word_ofWord]

/-- Settles O1: the word's fields are the command's, and decoding the fields gives the command. -/
theorem decodeOfEncodeIsTheCommand : Obligations.DecodeOfEncodeIsTheCommand := by
  intro argW i hwf
  rw [Machine.decode_eq_ok_iff, encode_lt_iff, encode, ofWord_word, decodeCommand_encodeCommand]
  exact ⟨hwf, rfl⟩

/-- Settles O2: encoding the decoded fields of a word gives the word, which fits exactly when the command does. -/
theorem everyCommandWordDecodes : Obligations.EveryCommandWordDecodes := by
  intro argW w
  refine ⟨fun hfit => ?_, fun hwide => if_neg hwide.not_gt⟩
  have hback := encode_decodeCommand_ofWord w
  exact ⟨_, Machine.decode_eq_ok_iff.2 ⟨hfit, rfl⟩, (encode_lt_iff argW _).1 (hback.symm ▸ hfit), hback⟩

/-- The argument has no part in which row of the table a command is of. -/
theorem row_decodeCommand (op : BitVec 4) (arg : Nat) :
    (decodeCommand ⟨op, arg⟩).row = (decodeCommand ⟨op, 0⟩).row := by
  obtain hop | ⟨low, rfl⟩ := op_cases op
  · fin_cases hop <;> rfl
  · rw [decodeCommand_high, decodeCommand_high]; rfl

/-- The match and mask of the nine rows of the table (R50). -/
def opcodeRows : List (BitVec 4 × BitVec 4) :=
  [(0x0, 0xF), (0x1, 0xF), (0x2, 0xF), (0x3, 0xF), (0x4, 0xF), (0x5, 0xF), (0x6, 0xF), (0x7, 0xF), (0x8, 0x8)]

theorem row_mem_opcodeRows (i : Instr) : i.row ∈ opcodeRows := by
  cases i <;> simp [Instr.row, opcodeRows]

/-- An opcode meets the mask and match of a row exactly when its command is of that row. -/
theorem matches_row_iff (op : BitVec 4) (i : Instr) (arg : Nat) :
    op &&& i.row.2 = i.row.1 ↔ (decodeCommand ⟨op, arg⟩).row = i.row := by
  have hrow := row_mem_opcodeRows i
  rw [row_decodeCommand]
  generalize i.row = r at hrow
  revert op
  fin_cases hrow <;> decide

/-- Settles O3: the table's rows one by one, and each row's mask and match. -/
theorem opcodeMap : Obligations.OpcodeMap := fun arg =>
  ⟨rfl, rfl, rfl, rfl, rfl, rfl, rfl, rfl, fun low => decodeCommand_high low arg,
    fun op i => matches_row_iff op i arg⟩

/-- Settles O5: each listed word is evaluated. -/
theorem listedCommandWordsDecode : Obligations.ListedCommandWordsDecode := by
  unfold Obligations.ListedCommandWordsDecode
  decide

/-! ### The bits of a command word and of a response word -/

/-- Bits 3 to 0 of a command word are the opcode's, the bits above are the argument's. -/
theorem word_testBit (c : Command) (k : Nat) :
    c.word.testBit k = if k < 4 then c.op.getLsbD k else c.arg.testBit (k - 4) := by
  rw [Command.word, mul_comm, Nat.testBit_two_pow_mul_add _ c.op.isLt]
  rfl

/-- Settles O4: the word's bits from its two fields. -/
theorem commandWordLayout : Obligations.CommandWordLayout := by
  intro argW c harg
  refine ⟨(word_lt_iff argW c).2 harg, fun k hk => ?_, fun k _ => ?_⟩
  · rw [word_testBit, if_pos hk]
  · rw [word_testBit, if_neg (by omega), Nat.add_sub_cancel]

/-- Settles O7: the response word is the data appended to the status. -/
theorem responseWordLayout : Obligations.ResponseWordLayout := by
  intro r
  refine ⟨fun k hk => ?_, fun k _ => ?_⟩
  · rw [Machine.Response.word, BitVec.getLsbD_append, if_pos hk]
  · rw [Machine.Response.word, BitVec.getLsbD_append, if_neg (by omega), Nat.add_sub_cancel]

end Sys2Proof
end

section
/-! What a command's execution does, by its opcode (43_generator.md R75 to R82, 60_exceptions.md R90, R91): it is
total, ends in one response, and writes the registers its row names. -/

namespace Sys2Proof.Machine

/-! ### The opcode of each constructor -/

@[simp] theorem op_seed (v : Nat) : (Instr.seed v).op = 0x1 := rfl
@[simp] theorem op_seedDefault (a : Nat) : (Instr.seedDefault a).op = 0x2 := rfl
@[simp] theorem op_nextBs (a : Nat) : (Instr.nextBs a).op = 0x3 := rfl
@[simp] theorem op_nextWv (a : Nat) : (Instr.nextWv a).op = 0x4 := rfl
@[simp] theorem op_discard (z : Nat) : (Instr.discard z).op = 0x5 := rfl
@[simp] theorem op_getMin (a : Nat) : (Instr.getMin a).op = 0x6 := rfl
@[simp] theorem op_getMax (a : Nat) : (Instr.getMax a).op = 0x7 := rfl
@[simp] theorem op_reservedZero (a : Nat) : (Instr.reservedZero a).op = 0x0 := rfl

theorem op_reservedHigh_ne (low : BitVec 3) (a : Nat) {op : BitVec 4} (h : op.toNat < 8) :
    (Instr.reservedHigh low a).op ≠ op := by
  rintro rfl
  exact (eight_le_op_reservedHigh low a).not_gt h

/-! ### Totality and the frame of an execution -/

theorem exec_total (i : Instr) (s : State) : ∃ t, exec i s = .next t := by
  cases i <;> exact ⟨_, rfl⟩

theorem step_total (s : State) : ∃ t, step s = .next t := by
  unfold step
  split
  · exact ⟨_, rfl⟩
  · exact exec_total _ _

/-- Settles O53: every edge and every command answers a next state. -/
theorem theCoreNeverStops : Obligations.TheCoreNeverStops := fun s =>
  ⟨step_total s, fun i => exec_total i s⟩

/-- Settles O37: the frame of an execution. -/
theorem everyCommandEndsInOneResponse : Obligations.EveryCommandEndsInOneResponse := by
  intro i s
  obtain ⟨t, ht⟩ := exec_total i s
  obtain ⟨hbuild, hinputs, hdraws, _, _, hseq, -⟩ := exec_inversion ht
  exact ⟨t, _, ht, hseq, hbuild, hinputs, hdraws⟩

/-! ### Arguments that are not read, reserved opcodes and SEED_DEFAULT -/

theorem reserved_op_cases {op : BitVec 4} (h : op = 0x0 ∨ 0x8 ≤ op) : op = 0x0 ∨ ∃ low : BitVec 3, op = 1#1 ++ low := by
  revert op
  decide

/-- A reserved opcode decodes to one of the two reserved rows. -/
theorem decodeCommand_reserved {op : BitVec 4} (h : op = 0x0 ∨ 0x8 ≤ op) (arg : Nat) :
    decodeCommand ⟨op, arg⟩ = .reservedZero arg ∨ ∃ low, decodeCommand ⟨op, arg⟩ = .reservedHigh low arg := by
  obtain rfl | ⟨low, rfl⟩ := reserved_op_cases h
  · exact .inl rfl
  · exact .inr ⟨low, decodeCommand_high low arg⟩

/-- Settles O33: every reserved opcode does ILLEGAL(). -/
theorem reservedOpcodesAreAnsweredIllegalOp : Obligations.ReservedOpcodesAreAnsweredIllegalOp := by
  intro s arg
  refine ⟨exec_reservedZero arg s, fun low => exec_reservedHigh low arg s, fun op hop => ?_⟩
  obtain h | ⟨low, h⟩ := decodeCommand_reserved hop arg
  · rw [h]; exact exec_reservedZero arg s
  · rw [h]; exact exec_reservedHigh low arg s

/-- Settles O34: the meanings of these five commands do not take the argument. -/
theorem ignoredArgumentsHaveNoEffect : Obligations.IgnoredArgumentsHaveNoEffect := by
  intro s arg op hop
  fin_cases hop <;> rfl

/-- Settles O28: the seed SEED_DEFAULT takes is the build's, as reset does. -/
theorem seedDefaultIsSeedOfTheDefault : Obligations.SeedDefaultIsSeedOfTheDefault := fun s arg =>
  ⟨defaultSeed_lt s.build, rfl, exec_seedDefault arg s⟩

/-! ### Which register a command writes -/

/-- Settles O35: seeding packs one value into both registers, and each generation command sets one of them. -/
theorem seedingSynchronisesAndGenerationMovesOneRegister :
    Obligations.SeedingSynchronisesAndGenerationMovesOneRegister := by
  refine ⟨fun s v => ⟨⟨_, exec_seed v s, pack_unpack _⟩, ⟨_, exec_seedDefault v s, pack_unpack _⟩,
    ⟨_, exec_nextBs v s, rfl⟩, ⟨_, exec_discard v s, rfl⟩, ⟨_, exec_nextWv v s, rfl⟩, fun i hop => ?_⟩,
    fun b => pack_unpack _⟩
  cases i with
  | getMin | getMax | reservedZero | reservedHigh => exact ⟨_, rfl, rfl, rfl⟩
  | seed | seedDefault | nextBs | nextWv | discard => simp at hop

/-- NEXT_BS and NEXT_WV put their response's data into OUT, and every other command keeps OUT. -/
theorem exec_out (i : Instr) (s : State) : ∃ t r, exec i s = .next t ∧ t.seq = .resp r ∧
    ((i.op = 0x3 ∨ i.op = 0x4) ∧ t.out = r.data ∨ (i.op ≠ 0x3 ∧ i.op ≠ 0x4) ∧ t.out = s.out) := by
  cases i with
  | nextBs | nextWv => exact ⟨_, _, rfl, rfl, .inl ⟨by simp, rfl⟩⟩
  | seed | seedDefault | discard | getMin | getMax | reservedZero => exact ⟨_, _, rfl, rfl, .inr ⟨by simp, rfl⟩⟩
  | reservedHigh low a =>
    exact ⟨_, _, rfl, rfl, .inr ⟨⟨op_reservedHigh_ne low a (by decide), op_reservedHigh_ne low a (by decide)⟩, rfl⟩⟩

/-- Settles O36, by whether the command is a NEXT command. -/
theorem outHoldsTheLastOutput : Obligations.OutHoldsTheLastOutput := by
  intro i s
  obtain ⟨t, r, ht, hseq, ⟨hop, hout⟩ | ⟨⟨hop3, hop4⟩, hout⟩⟩ := exec_out i s
  · exact ⟨t, r, ht, hseq, fun _ => hout, fun h3 h4 => (hop.elim h3 h4).elim⟩
  · exact ⟨t, r, ht, hseq, fun h => (h.elim hop3 hop4).elim, fun _ _ => hout⟩

/-! ### The commands at transaction level (R90) -/

theorem transact_seed (b : Build) (k : CoreState) (v : Nat) :
    transact b k ⟨0x1, v⟩ =
      (⟨shifted (seedState b v), unpack (shifted (seedState b v)), k.out⟩, ⟨statusOk, 0⟩) := rfl

theorem transact_nextBs (b : Build) (k : CoreState) (a : Nat) :
    transact b k ⟨0x3, a⟩ =
      (⟨(nextBs k.breg).1, k.wreg, (nextBs k.breg).2⟩, ⟨statusOk, (nextBs k.breg).2⟩) := rfl

theorem transact_nextWv (b : Build) (k : CoreState) (a : Nat) :
    transact b k ⟨0x4, a⟩ =
      (⟨k.breg, advanceWords k.wreg, topWords k.wreg⟩, ⟨statusOk, topWords k.wreg⟩) := rfl

theorem transact_discard (b : Build) (k : CoreState) (z : Nat) :
    transact b k ⟨0x5, z⟩ = (⟨discarded b k.breg z, k.wreg, k.out⟩, ⟨statusOk, 0⟩) := rfl

/-- Settles O43: the registers after SEED are a function of the build and the seed. -/
theorem seedForgetsTheState : Obligations.SeedForgetsTheState := by
  intro b k k' v
  simp only [transact_seed, and_self]

/-- An execution is the command at transaction level, and touches neither the build nor the inputs. -/
theorem exec_eq_transact (s : State) (c : Command) : ∃ t, exec (decodeCommand c) s = .next t ∧
    t.core = (transact s.build s.core c).1 ∧ t.seq = .resp (transact s.build s.core c).2 ∧
    t.build = s.build ∧ t.inputs = s.inputs := by
  obtain ⟨t, ht⟩ := exec_total (decodeCommand c) s
  obtain ⟨hbuild, hinputs, -, status, data, hseq, -⟩ := exec_inversion ht
  have houtcome : s.outcomeOf c = (t.core, ⟨status, data⟩) := by
    simp only [State.outcomeOf, ht, hseq]
  rw [← outcomeOf_eq_transact, houtcome]
  exact ⟨t, ht, rfl, hseq, hbuild, hinputs⟩

end Sys2Proof.Machine
end

section
/-! The ports and the sequencer (60_exceptions.md R85 to R89): what each edge without reset does and what crosses the
ports at it, and from these what the core does over a number of edges. -/

namespace Sys2Proof.Machine

/-! ### The outputs (R86) -/

theorem cmdReady_iff (s : State) : s.cmdReady = true ↔ s.seq = .idle := by
  obtain ⟨build, breg, wreg, out, seq, inputs, draws⟩ := s
  cases seq with
  | idle => exact iff_of_true rfl rfl
  | init | busy | resp => exact iff_of_false Bool.false_ne_true nofun

theorem rspValid_iff (s : State) : s.rspValid = true ↔ ∃ r, s.seq = .resp r := by
  obtain ⟨build, breg, wreg, out, seq, inputs, draws⟩ := s
  cases seq with
  | resp r => exact iff_of_true rfl ⟨r, rfl⟩
  | init | idle | busy => exact iff_of_false Bool.false_ne_true nofun

theorem rspStatus_of_resp {s : State} {r : Response} (hq : s.seq = .resp r) : s.rspStatus = r.status := by
  cases s; cases hq; rfl

theorem rspData_of_resp {s : State} {r : Response} (hq : s.seq = .resp r) : s.rspData = r.data := by
  cases s; cases hq; rfl

/-! ### Each edge, with what crosses the ports at it -/

section Edges

variable {s : State}

theorem event_reset (hr : s.pins.rst = true) : s.event = none := by simp [State.event, hr]

theorem event_init (hr : s.pins.rst = false) {left : Nat} (hq : s.seq = .init left) : s.event = none := by
  simp [State.event, hr, hq]

theorem event_busy (hr : s.pins.rst = false) {c : Command} {left : Nat} (hq : s.seq = .busy c left) :
    s.event = none := by
  simp [State.event, hr, hq]

theorem step_idle_accept (hr : s.pins.rst = false) (hq : s.seq = .idle) (hv : s.pins.cmdValid = true) :
    step s = .next (s.tick.setSeq (.busy (portCommand s.build s.pins.cmdOp s.pins.cmdArg)
      (commandExtra s.build (portCommand s.build s.pins.cmdOp s.pins.cmdArg)))) ∧
    s.event = some (.accepted (portCommand s.build s.pins.cmdOp s.pins.cmdArg)) := by
  simp [step_idle hr hq, idleEdge, hv, State.event, hr, hq]

theorem step_idle_wait (hr : s.pins.rst = false) (hq : s.seq = .idle) (hv : s.pins.cmdValid = false) :
    step s = .next s.tick ∧ s.event = none := by
  simp [step_idle hr hq, idleEdge, hv, State.event, hr, hq]

theorem step_resp_take (hr : s.pins.rst = false) {r : Response} (hq : s.seq = .resp r)
    (hv : s.pins.rspReady = true) : step s = .next (s.tick.setSeq .idle) ∧ s.event = some (.taken r) := by
  simp [step_resp hr hq, respEdge, hv, State.event, hr, hq]

theorem step_resp_hold (hr : s.pins.rst = false) {r : Response} (hq : s.seq = .resp r)
    (hv : s.pins.rspReady = false) : step s = .next s.tick ∧ s.event = none := by
  simp [step_resp hr hq, respEdge, hv, State.event, hr, hq]

/-- No step changes the build, and each consumes the inputs of one edge. -/
theorem step_frame {t : State} (h : step s = .next t) : t.build = s.build ∧ t.inputs = s.inputs.tail := by
  obtain ⟨-, rfl⟩ | ⟨-, left, -, rfl⟩ | ⟨-, -, rfl⟩ | ⟨-, c, -, hexec⟩ | ⟨-, c, left, -, rfl⟩ | ⟨-, r, -, rfl⟩ :=
    step_inversion h
  · exact ⟨rfl, rfl⟩
  · cases left <;> exact ⟨rfl, rfl⟩
  · unfold idleEdge; split <;> exact ⟨rfl, rfl⟩
  · obtain ⟨hbuild, hinputs, -⟩ := exec_inversion hexec
    exact ⟨hbuild, hinputs⟩
  · exact ⟨rfl, rfl⟩
  · unfold respEdge; split <;> exact ⟨rfl, rfl⟩

end Edges

/-- Settles O44: the outputs by the sequencer's state, and the edge that holds a response. -/
theorem handshakeOutputs : Obligations.HandshakeOutputs := by
  refine ⟨fun s => ⟨cmdReady_iff s, rspValid_iff s, fun r hq => ⟨rspStatus_of_resp hq, rspData_of_resp hq⟩⟩,
    fun s hvalid hr hready => ?_⟩
  obtain ⟨r, hq⟩ := (rspValid_iff s).1 hvalid
  have hq' : s.tick.seq = .resp r := hq
  exact ⟨s.tick, (step_resp_hold hr hq hready).1, (rspValid_iff _).2 ⟨r, hq'⟩,
    (rspStatus_of_resp hq').trans (rspStatus_of_resp hq).symm, (rspData_of_resp hq').trans (rspData_of_resp hq).symm⟩

/-- Settles O45: the edges in IDLE; in every other state the edge reads reset and rsp_ready only. -/
theorem commandTransfer : Obligations.CommandTransfer := by
  refine ⟨fun s hq hr => ⟨fun hv => ⟨_, (step_idle_accept hr hq hv).1⟩, fun hv => (step_idle_wait hr hq hv).1⟩, ?_⟩
  rintro ⟨build, breg, wreg, out, seq, inputs, draws⟩ p ps valid op arg hq
  cases seq with
  | idle => exact absurd rfl hq
  | init | busy | resp => rfl

/-- Settles O48: the reset edge reads no other pin. -/
theorem resetTakesPriority : Obligations.ResetTakesPriority := by
  refine ⟨fun s hr => ⟨event_reset hr, _, step_reset hr, rfl, rfl, rfl, rfl, rfl⟩, fun s p ps hr => ?_⟩
  rw [step_reset (s := { s with inputs := p :: ps }) hr, step_reset rfl]
  rfl

/-- Settles O54, by the sequencer's state: only the last edge of BUSY runs a command. -/
theorem onlyACompletedCommandChangesRegisters : Obligations.OnlyACompletedCommandChangesRegisters := by
  intro s t hreliable hr hstep
  refine ⟨(step_frame hstep).1, fun c hq => ?_, fun hnot => ?_⟩
  · obtain ⟨u, hexec, hcore, hseq, -⟩ := exec_eq_transact s.tick c
    rw [step_busy_last hr hq, hexec] at hstep
    cases hstep
    exact ⟨hcore, hseq⟩
  · obtain ⟨hr', -⟩ | ⟨-, left, hq, -⟩ | ⟨-, -, rfl⟩ | ⟨-, c, hq, -⟩ | ⟨-, c, left, -, rfl⟩ | ⟨-, r, -, rfl⟩ :=
      step_inversion hstep
    · simp [hr] at hr'
    · exact absurd hq (hreliable left)
    · exact idleEdge_core s.pins s.tick
    · exact absurd hq (hnot c)
    · rfl
    · exact respEdge_core s.pins s.tick

/-! ### Runs of several edges -/

theorem observe_zero (s : State) : observe 0 s = (s, []) := rfl

theorem observe_succ {s t : State} (h : step s = .next t) (n : Nat) :
    observe (n + 1) s = ((observe n t).1, s.event.toList ++ (observe n t).2) := by
  simp only [observe, h]

/-- A run of m + n edges is a run of m and then one of n. -/
theorem observe_add (m n : Nat) (s : State) : observe (m + n) s =
    ((observe n (observe m s).1).1, (observe m s).2 ++ (observe n (observe m s).1).2) := by
  induction m generalizing s with
  | zero => rw [Nat.zero_add, observe_zero, List.nil_append]
  | succ m ih =>
    obtain ⟨t, ht⟩ := step_total s
    rw [Nat.succ_add, observe_succ ht, observe_succ ht, ih, List.append_assoc]

theorem observe_frame (n : Nat) (s : State) :
    (observe n s).1.build = s.build ∧ (observe n s).1.inputs = s.inputs.drop n := by
  induction n generalizing s with
  | zero => exact ⟨rfl, rfl⟩
  | succ n ih =>
    obtain ⟨t, ht⟩ := step_total s
    obtain ⟨hbuild, hinputs⟩ := step_frame ht
    rw [observe_succ ht]
    obtain ⟨ihbuild, ihinputs⟩ := ih t
    exact ⟨ihbuild.trans hbuild, by rw [ihinputs, hinputs, List.drop_tail]⟩

theorem noReset_of_inputs_drop {s t : State} {n : Nat} (h : s.noReset) (hin : t.inputs = s.inputs.drop n) :
    t.noReset := fun p hp => h p (List.mem_of_mem_drop (hin ▸ hp))

theorem noReset_observe {s : State} (h : s.noReset) (n : Nat) : (observe n s).1.noReset :=
  noReset_of_inputs_drop h (observe_frame n s).2

theorem noReset_step {s t : State} (h : s.noReset) (hstep : step s = .next t) : t.noReset :=
  noReset_of_inputs_drop h (n := 1) (by rw [(step_frame hstep).2, List.drop_one])

theorem pins_cases (s : State) : s.pins = Pins.quiet ∨ s.pins ∈ s.inputs.take 1 := by
  change s.inputs.headD Pins.quiet = Pins.quiet ∨ s.inputs.headD Pins.quiet ∈ s.inputs.take 1
  cases s.inputs <;> simp

theorem pins_rst_of_noReset {s : State} (h : s.noReset) : s.pins.rst = false := by
  obtain hquiet | hmem := pins_cases s
  · rw [hquiet]; rfl
  · exact h _ (List.mem_of_mem_take hmem)

/-- The state n edges later, where nothing but the sequencer has changed. -/
def State.later (s : State) (n : Nat) (q : Sequencer) : State :=
  { s with seq := q, inputs := s.inputs.drop n, draws := s.draws + n }

theorem later_zero {s : State} {q : Sequencer} (h : s.seq = q) : s.later 0 q = s := by
  subst h; rfl

theorem tick_later (s : State) (n : Nat) (q q' : Sequencer) :
    (s.tick.setSeq q).later n q' = s.later (n + 1) q' := by
  exact congrArg₂ (fun i d => { s with seq := q', inputs := i, draws := d }) List.drop_tail
    ((Nat.add_assoc s.draws 1 n).trans (congrArg (s.draws + ·) (Nat.add_comm 1 n)))

/-! ### The response is held (R89) -/

theorem observe_resp_hold {s : State} {r : Response} {n : Nat} (hq : s.seq = .resp r)
    (h : ∀ p ∈ s.inputs.take n, p.rst = false ∧ p.rspReady = false) : observe n s = (s.later n (.resp r), []) := by
  induction n generalizing s with
  | zero => rw [later_zero hq, observe_zero]
  | succ n ih =>
    have hpins : s.pins.rst = false ∧ s.pins.rspReady = false := by
      obtain hquiet | hmem := pins_cases s
      · rw [hquiet]; exact ⟨rfl, rfl⟩
      · exact h _ (List.take_subset_take_left _ (by omega) hmem)
    obtain ⟨hstep, hevent⟩ := step_resp_hold hpins.1 hq hpins.2
    have hrest : ∀ p ∈ s.tick.inputs.take n, p.rst = false ∧ p.rspReady = false := fun p hp =>
      h p (List.mem_of_mem_tail ((List.tail_take_eq_take_tail s.inputs (n + 1)).symm ▸ hp))
    rw [observe_succ hstep, ih (s := s.tick) hq hrest, hevent]
    exact congrArg (·, []) (tick_later s n s.seq _)

/-- Settles O47: the edge that takes a response, and the run that holds it. -/
theorem responseTransfer : Obligations.ResponseTransfer := by
  refine ⟨fun s r hq hr hready => (step_resp_take hr hq hready).1, fun s r n hq h => ?_⟩
  rw [observe_resp_hold hq h, ← hq]
  rfl

/-! ### An execution takes its latency (R88, R110) -/

theorem observe_busy {s : State} {c : Command} {left n : Nat} (hq : s.seq = .busy c left) (h : s.noReset)
    (hn : n ≤ left) : observe n s = (s.later n (.busy c (left - n)), []) := by
  induction n generalizing s left with
  | zero => rw [Nat.sub_zero, later_zero hq]; rfl
  | succ n ih =>
    obtain ⟨left, rfl⟩ := Nat.exists_eq_add_of_le' (Nat.zero_lt_of_lt hn)
    have hr := pins_rst_of_noReset h
    have hstep := step_busy_wait hr hq
    rw [observe_succ hstep, event_busy hr hq, ih rfl (noReset_step h hstep) (by omega), tick_later,
      Nat.add_sub_add_right]
    rfl

/-- The edge that ends an execution has the effect of the command at transaction level. -/
theorem observe_busy_ends {s : State} {c : Command} {left : Nat} (hq : s.seq = .busy c left) (h : s.noReset) :
    (observe (left + 1) s).1.core = (transact s.build s.core c).1 ∧
    (observe (left + 1) s).1.seq = .resp (transact s.build s.core c).2 ∧ (observe (left + 1) s).2 = [] := by
  have hwait := observe_busy hq h le_rfl
  have hlast := noReset_observe h left
  rw [hwait, Nat.sub_self] at hlast
  have hr := pins_rst_of_noReset hlast
  obtain ⟨t, hexec, hcore, hseq, -⟩ := exec_eq_transact (s.later left (.busy c 0)).tick c
  have hstep : step (s.later left (.busy c 0)) = .next t := (step_busy_last hr rfl).trans hexec
  rw [observe_add, hwait, Nat.sub_self, observe_succ hstep, event_busy hr rfl]
  exact ⟨hcore, hseq, rfl⟩

theorem commandExtra_reserved (b : Build) {op : BitVec 4} (h : op = 0x0 ∨ 0x8 ≤ op) (a : Nat) :
    commandExtra b ⟨op, a⟩ = b.lat.illegal.extra 0 := by
  unfold commandExtra
  obtain h | ⟨low, h⟩ := decodeCommand_reserved h a <;> rw [h]

/-- Settles O46: the waiting edges, the last edge, and the parameter an acceptance loads the count from. -/
theorem executionTakesItsLatency : Obligations.ExecutionTakesItsLatency := by
  refine ⟨fun s c left hq h => ⟨fun n hn => ?_, observe_busy_ends hq h⟩, fun b a => ?_, fun s hq hr hv => ?_⟩
  · rw [observe_busy hq h hn]
    exact ⟨rfl, rfl, rfl⟩
  · exact ⟨rfl, rfl, rfl, rfl, rfl, rfl, rfl, fun op hop => congrArg (· + 1) (commandExtra_reserved b hop a)⟩
  · exact ⟨_, (step_idle_accept hr hq hv).1, rfl⟩

end Sys2Proof.Machine
end

section
/-! Reset and INIT (70_reset_and_hazards.md R103 to R106, 10_state.md R30), and the invariant of the machine
(10_state.md R17, 30_encoding.md R47, R49). -/

namespace Sys2Proof.Machine

open Polynomial

/-! ### The reset state (R30) -/

/-- Seeding with an ARG_W-bit v gives x^(SEP_OFFSET + v·2^32) mod P (R76). -/
theorem toPoly_seedState_of_lt {b : Build} {v : Nat} (hv : v < 2 ^ b.argW) :
    toPoly (seedState b v) = powX (b.sepOffset.toNat + v * 2 ^ 32) := by
  rw [toPoly_seedState, Nat.mod_eq_of_lt hv]

theorem toPoly_shifted_seedState {b : Build} {v : Nat} (hv : v < 2 ^ b.argW) :
    toPoly (shifted (seedState b v)) = X * powX (b.sepOffset.toNat + v * 2 ^ 32) := by
  rw [toPoly_shifted, toPoly_seedState_of_lt hv]

/-- Settles O50: both registers hold the default seed's power of x, and the sequencer is idle. -/
theorem resetState : Obligations.ResetState :=
  ⟨fun b => ⟨toPoly_shifted_seedState (defaultSeed_lt b), fun k => unpack_get _ k.val k.isLt, rfl, rfl, rfl⟩, rfl⟩

/-! ### The reset sequence (R103 to R106) -/

theorem observe_init {s : State} {left n : Nat} (hq : s.seq = .init left) (h : s.noReset) (hn : n ≤ left) :
    (observe n s).1.seq = .init (left - n) ∧ (observe n s).2 = [] := by
  induction n generalizing s left with
  | zero => exact ⟨hq, rfl⟩
  | succ n ih =>
    obtain ⟨left, rfl⟩ := Nat.exists_eq_add_of_le' (Nat.zero_lt_of_lt hn)
    have hr := pins_rst_of_noReset h
    have hstep := step_init hr hq
    obtain ⟨hseq, hevents⟩ := ih rfl (noReset_step h hstep) (by omega : n ≤ left)
    rw [observe_succ hstep, event_init hr hq, hevents, hseq, Nat.add_sub_add_right]
    exact ⟨rfl, rfl⟩

/-- INIT ends with the registers of the reset state. -/
theorem observe_init_ends {s : State} {left : Nat} (hq : s.seq = .init left) (h : s.noReset) :
    (observe (left + 1) s).1.seq = .idle ∧
    (observe (left + 1) s).1.breg = (State.resetOf s.build).breg ∧
    (observe (left + 1) s).1.wreg = (State.resetOf s.build).wreg ∧
    (observe (left + 1) s).2 = [] := by
  obtain ⟨hseq, hevents⟩ := observe_init hq h le_rfl
  have hbuild := (observe_frame left s).1
  have hr := pins_rst_of_noReset (noReset_observe h left)
  rw [Nat.sub_self] at hseq
  rw [observe_add, observe_succ (step_init hr hseq), event_init hr hseq, hevents, ← hbuild]
  exact ⟨rfl, rfl, rfl, rfl⟩

theorem resetEdge_inputs (s : State) : (resetEdge s).inputs = s.inputs := rfl

/-- Settles O49: the reset edge loads the count of INIT, and INIT ends with the reset registers. -/
theorem resetSequence : Obligations.ResetSequence := by
  intro s p ps hin hr hps
  have hpins : s.pins.rst = true := by rw [State.pins, hin]; exact hr
  have hrest : (resetEdge s.tick).noReset := by
    intro q hq
    exact hps q (by rwa [resetEdge_inputs, tick_inputs, hin] at hq)
  have hrun (n : Nat) : observe (n + 1) s = observe n (resetEdge s.tick) := by
    rw [observe_succ (step_reset hpins), event_reset hpins]
    rfl
  obtain ⟨hseq, hbreg, hwreg, hevents⟩ := observe_init_ends (resetEdge_seq s.tick) hrest
  refine ⟨fun n hn => ?_, ?_⟩
  · rw [hrun]
    exact (observe_init (resetEdge_seq s.tick) hrest hn).1
  · rw [hrun]
    exact ⟨hseq, hbreg, hwreg, (observe_frame _ _).1, hevents⟩

/-! ### Sound registers -/

/-- A register in shifted form with a nonzero logical state (R17). -/
def soundRegister (S : Reg256) : Prop := S.getLsbD 0 = false ∧ logical S ≠ 0

/-- Both registers are sound. -/
def CoreState.sound (k : CoreState) : Prop := soundRegister k.breg ∧ soundRegister (pack k.wreg)

theorem inv_iff (s : State) :
    s.Inv ↔ (s.reliable → s.core.sound) ∧ s.latchedFits ∧ s.responseLegal := by
  constructor
  · intro ⟨hform, hnonzero, hfits, hlegal⟩
    exact ⟨fun hrel => ⟨⟨(hform hrel).1, (hnonzero hrel).1⟩, ⟨(hform hrel).2, (hnonzero hrel).2⟩⟩, hfits, hlegal⟩
  · intro ⟨hsound, hfits, hlegal⟩
    exact ⟨fun hrel => ⟨(hsound hrel).1.1, (hsound hrel).2.1⟩, fun hrel => ⟨(hsound hrel).1.2, (hsound hrel).2.2⟩,
      hfits, hlegal⟩

theorem soundRegister_shifted {r : Elem} (h : r ≠ 0) : soundRegister (shifted r) :=
  ⟨shifted_bit_zero r, by rwa [logical_shifted]⟩

/-- A register multiplied by a power of x modulo x·P stays sound. -/
theorem soundRegister_of_mul {S T : Reg256} (n : Nat) (h : soundRegister S)
    (hT : toPoly T = (X ^ n * toPoly S) %ₘ (X * polyP)) : soundRegister T :=
  ⟨(logical_of_mul n h.1 hT).1, logical_ne_zero_of_mul n h.1 h.2 hT⟩

/-- NEXT_BS multiplies BREG by x^32 modulo x·P (R78). -/
theorem toPoly_nextBs (S : Reg256) : toPoly (nextBs S).1 = (X ^ 32 * toPoly S) %ₘ (X * polyP) := by
  rw [nextBs_fst, toPoly_xss_iterate]

theorem soundRegister_discarded (b : Build) {S : Reg256} (z : Nat) (h : soundRegister S) :
    soundRegister (discarded b S z) :=
  soundRegister_shifted (jump_ne_zero h.2 z b.argW 5 (by have := argW_le b; omega))

/-- Seeding makes both registers sound whatever they held. -/
theorem sound_seeded (b : Build) (v : Nat) (out : Out32) :
    CoreState.sound ⟨shifted (seedState b v), unpack (shifted (seedState b v)), out⟩ := by
  have h := soundRegister_shifted (seedState_ne_zero b v)
  exact ⟨h, by rwa [pack_unpack]⟩

/-- Every command keeps the registers sound. -/
theorem exec_keeps_sound {i : Instr} {s t : State} (h : exec i s = .next t) (hs : s.core.sound) : t.core.sound := by
  obtain ⟨hb, hw⟩ := hs
  cases i with
  | seed v => cases h; exact sound_seeded s.build v s.out
  | seedDefault a => cases h; exact sound_seeded s.build s.build.defaultSeed s.out
  | nextBs a => cases h; exact ⟨soundRegister_of_mul 32 hb (toPoly_nextBs s.breg), hw⟩
  | nextWv a => cases h; exact ⟨hb, soundRegister_of_mul 32 hw (toPoly_pack_advanceWords s.wreg)⟩
  | discard z => cases h; exact ⟨soundRegister_discarded s.build z hb, hw⟩
  | getMin | getMax | reservedZero | reservedHigh => cases h; exact ⟨hb, hw⟩

/-! ### The invariant by the sequencer's state -/

theorem inv_of_init {s : State} {left : Nat} (hq : s.seq = .init left) : s.Inv :=
  (inv_iff s).2 ⟨fun hrel => absurd hq (hrel left), fun _ _ h => by simp [hq] at h, fun _ h => by simp [hq] at h⟩

theorem inv_of_idle {s : State} (hq : s.seq = .idle) (hs : s.core.sound) : s.Inv :=
  (inv_iff s).2 ⟨fun _ => hs, fun _ _ h => by simp [hq] at h, fun _ h => by simp [hq] at h⟩

theorem inv_of_busy {s : State} {c : Command} {left : Nat} (hq : s.seq = .busy c left) (hs : s.core.sound)
    (hc : c.arg < 2 ^ s.build.argW) : s.Inv :=
  (inv_iff s).2 ⟨fun _ => hs, fun _ _ h => by rw [hq] at h; cases h; exact hc, fun _ h => by simp [hq] at h⟩

theorem inv_of_resp {s : State} {r : Response} (hq : s.seq = .resp r) (hs : s.core.sound)
    (hr : r.status = statusOk ∨ r = ⟨statusIllegalOp, 0⟩) : s.Inv :=
  (inv_iff s).2 ⟨fun _ => hs, fun _ _ h => by simp [hq] at h, fun _ h => by rw [hq] at h; cases h; exact hr⟩

/-- Settles O51: the reset registers are those of a seed. -/
theorem resetStateIsSound : Obligations.ResetStateIsSound := fun b =>
  inv_of_idle rfl (sound_seeded b b.defaultSeed _)

theorem inv_initEdge (left : Nat) (s : State) : (initEdge left s).Inv := by
  cases left with
  | zero => exact inv_of_idle rfl (sound_seeded s.build s.build.defaultSeed s.out)
  | succ n => exact inv_of_init rfl

/-- The wires of `cmd_arg` carry ARG_W bits, whatever the host drives (R85). -/
theorem inv_idleEdge (p : Pins) {s : State} (hq : s.seq = .idle) (hs : s.core.sound) : (idleEdge p s).Inv := by
  unfold idleEdge
  split
  · exact inv_of_busy rfl hs (Nat.mod_lt _ (by positivity))
  · exact inv_of_idle hq hs

theorem inv_exec {i : Instr} {s t : State} (h : exec i s = .next t) (hs : s.core.sound) : t.Inv := by
  obtain ⟨-, -, -, status, data, hq, hlegal⟩ := exec_inversion h
  refine inv_of_resp hq (exec_keeps_sound h hs) (hlegal.imp_right ?_)
  rintro ⟨rfl, rfl⟩
  rfl

theorem inv_respEdge (p : Pins) {s : State} {r : Response} (hq : s.seq = .resp r) (hs : s.core.sound)
    (hr : r.status = statusOk ∨ r = ⟨statusIllegalOp, 0⟩) : (respEdge p s).Inv := by
  unfold respEdge
  split
  · exact inv_of_idle rfl hs
  · exact inv_of_resp hq hs hr

theorem reliable_of_seq {s : State} {q : Sequencer} (hq : s.seq = q) (h : ∀ left, q ≠ .init left) : s.reliable :=
  fun left => hq ▸ h left

/-- Settles O52, by what the edge does: it enters or leaves INIT, runs a command, or moves the sequencer and keeps
the registers. -/
theorem everyStepKeepsTheInvariant : Obligations.EveryStepKeepsTheInvariant := by
  intro s t hinv hstep
  obtain ⟨hsound, hfits, hlegal⟩ := (inv_iff s).1 hinv
  obtain ⟨-, rfl⟩ | ⟨-, left, -, rfl⟩ | ⟨-, hq, rfl⟩ | ⟨-, c, hq, hexec⟩ | ⟨-, c, left, hq, rfl⟩ | ⟨-, r, hq, rfl⟩ :=
    step_inversion hstep
  · exact inv_of_init (resetEdge_seq s.tick)
  · exact inv_initEdge left s.tick
  · exact inv_idleEdge s.pins hq (hsound (reliable_of_seq hq (by simp)))
  · exact inv_exec hexec (hsound (reliable_of_seq hq (by simp)))
  · exact inv_of_busy rfl (hsound (reliable_of_seq hq (by simp))) (hfits c (left + 1) hq)
  · exact inv_respEdge s.pins hq (hsound (reliable_of_seq hq (by simp))) (hlegal r hq)

end Sys2Proof.Machine
end

section
/-! The two levels (60_exceptions.md R90, 70_reset_and_hazards.md R111): between resets the core does what its accepted
commands do one after another, and a program's script runs to its end. -/

namespace Sys2Proof.Machine

/-! ### Commands and responses of a run -/

theorem acceptedOf_append (es fs : List Event) : acceptedOf (es ++ fs) = acceptedOf es ++ acceptedOf fs := by
  induction es with
  | nil => rfl
  | cons e es ih => cases e <;> simp [acceptedOf, ih]

theorem takenOf_append (es fs : List Event) : takenOf (es ++ fs) = takenOf es ++ takenOf fs := by
  induction es with
  | nil => rfl
  | cons e es ih => cases e <;> simp [takenOf, ih]

theorem transactAll_cons (b : Build) (k : CoreState) (c : Command) (cs : List Command) :
    transactAll b k (c :: cs) =
      ((transactAll b (transact b k c).1 cs).1, (transact b k c).2 :: (transactAll b (transact b k c).1 cs).2) := rfl

/-- The command that is accepted but not yet executed, if there is one. -/
def State.owed (s : State) : List Command :=
  match s.seq with
  | .busy c _ => [c]
  | .init _ | .idle | .resp _ => []

/-- The response that is pending but not yet taken, if there is one. -/
def State.held (s : State) : List Response :=
  match s.seq with
  | .resp r => [r]
  | .init _ | .idle | .busy _ _ => []

section Pending

variable {s : State}

theorem owed_of_idle (hq : s.seq = .idle) : s.owed = [] := by simp [State.owed, hq]
theorem owed_of_busy {c : Command} {left : Nat} (hq : s.seq = .busy c left) : s.owed = [c] := by simp [State.owed, hq]
theorem owed_of_resp {r : Response} (hq : s.seq = .resp r) : s.owed = [] := by simp [State.owed, hq]
theorem held_of_idle (hq : s.seq = .idle) : s.held = [] := by simp [State.held, hq]
theorem held_of_busy {c : Command} {left : Nat} (hq : s.seq = .busy c left) : s.held = [] := by simp [State.held, hq]
theorem held_of_resp {r : Response} (hq : s.seq = .resp r) : s.held = [r] := by simp [State.held, hq]

end Pending

/-- The transaction-level account of a state and the commands `cs` still to be accepted: the registers after the
command owed and these, and the responses, the one held first. -/
def State.account (s : State) (cs : List Command) : CoreState × List Response :=
  ((transactAll s.build s.core (s.owed ++ cs)).1, s.held ++ (transactAll s.build s.core (s.owed ++ cs)).2)

theorem account_of_idle {s : State} (hq : s.seq = .idle) (cs : List Command) :
    s.account cs = transactAll s.build s.core cs := by
  simp [State.account, owed_of_idle hq, held_of_idle hq]

theorem account_of_busy {s : State} {c : Command} {left : Nat} (hq : s.seq = .busy c left) (cs : List Command) :
    s.account cs = transactAll s.build s.core (c :: cs) := by
  simp [State.account, owed_of_busy hq, held_of_busy hq]

theorem account_of_resp {s : State} {r : Response} (hq : s.seq = .resp r) (cs : List Command) :
    s.account cs = ((transactAll s.build s.core cs).1, r :: (transactAll s.build s.core cs).2) := by
  simp [State.account, owed_of_resp hq, held_of_resp hq]

/-- An edge without reset settles the account: what it accepts enters, what it takes leaves, and nothing else
changes. -/
theorem account_step {s t : State} (hrel : s.reliable) (hr : s.pins.rst = false) (hstep : step s = .next t)
    (cs : List Command) : t.reliable ∧
    s.account (acceptedOf s.event.toList ++ cs) =
      ((t.account cs).1, takenOf s.event.toList ++ (t.account cs).2) := by
  match hq : s.seq with
  | .init left => exact absurd hq (hrel left)
  | .idle =>
    cases hv : s.pins.cmdValid
    · obtain ⟨hnext, hevent⟩ := step_idle_wait hr hq hv
      cases hnext.symm.trans hstep
      have hq' : s.tick.seq = .idle := hq
      rw [hevent, account_of_idle hq, account_of_idle hq']
      exact ⟨hrel, rfl⟩
    · obtain ⟨hnext, hevent⟩ := step_idle_accept hr hq hv
      cases hnext.symm.trans hstep
      rw [hevent, account_of_idle hq, account_of_busy (setSeq_seq s.tick _)]
      exact ⟨reliable_of_seq (setSeq_seq s.tick _) (by simp), rfl⟩
  | .busy c 0 =>
    obtain ⟨u, hexec, hcore, hseq, hbuild, -⟩ := exec_eq_transact s.tick c
    have hlast := (step_busy_last hr hq).symm.trans hstep
    cases hexec.symm.trans hlast
    rw [event_busy hr hq, account_of_busy hq, account_of_resp hseq, hcore, hbuild]
    exact ⟨reliable_of_seq hseq (by simp), rfl⟩
  | .busy c (left + 1) =>
    cases (step_busy_wait hr hq).symm.trans hstep
    rw [event_busy hr hq, account_of_busy hq, account_of_busy (setSeq_seq s.tick _)]
    exact ⟨reliable_of_seq (setSeq_seq s.tick _) (by simp), rfl⟩
  | .resp r =>
    cases hv : s.pins.rspReady
    · obtain ⟨hnext, hevent⟩ := step_resp_hold hr hq hv
      cases hnext.symm.trans hstep
      have hq' : s.tick.seq = .resp r := hq
      rw [hevent, account_of_resp hq, account_of_resp hq']
      exact ⟨hrel, rfl⟩
    · obtain ⟨hnext, hevent⟩ := step_resp_take hr hq hv
      cases hnext.symm.trans hstep
      rw [hevent, account_of_resp hq, account_of_idle (setSeq_seq s.tick _)]
      exact ⟨reliable_of_seq (setSeq_seq s.tick _) (by simp), rfl⟩

/-- A run without reset that ends idle has settled the account of its first state. -/
theorem account_observe {s : State} {n : Nat} (hrel : s.reliable) (h : s.noReset) (hend : (observe n s).1.seq = .idle) :
    s.account (acceptedOf (observe n s).2) = ((observe n s).1.core, takenOf (observe n s).2) := by
  induction n generalizing s with
  | zero =>
    have hq : s.seq = .idle := hend
    rw [account_of_idle hq]
    rfl
  | succ n ih =>
    obtain ⟨t, ht⟩ := step_total s
    obtain ⟨hrel', haccount⟩ := account_step hrel (pins_rst_of_noReset h) ht (acceptedOf (observe n t).2)
    rw [observe_succ ht] at hend ⊢
    rw [acceptedOf_append, takenOf_append, haccount, ih hrel' (noReset_step h ht) hend]

/-- Settles O55: an idle state owes nothing and holds nothing. -/
theorem cycleLevelRefinesTransactionLevel : Obligations.CycleLevelRefinesTransactionLevel := by
  intro s n hq h hend
  have haccount := account_observe (reliable_of_seq hq (by simp)) h hend
  rw [account_of_idle hq] at haccount
  rw [haccount]
  exact ⟨rfl, rfl⟩

/-! ### The run of a program (R111) -/

theorem hostScript_rst {b : Build} {c : Command} {p : Pins} (hp : p ∈ hostScript b c) : p.rst = false := by
  simp only [hostScript, List.mem_cons, List.mem_append, List.mem_replicate, List.not_mem_nil, or_false] at hp
  obtain rfl | ⟨-, rfl⟩ | rfl := hp <;> rfl

theorem programScript_rst {b : Build} {cs : List Command} {p : Pins} (hp : p ∈ programScript b cs) : p.rst = false := by
  induction cs with
  | nil => exact absurd hp List.not_mem_nil
  | cons c cs ih => exact (List.mem_append.1 hp).elim hostScript_rst ih

theorem length_hostScript (b : Build) (c : Command) : (hostScript b c).length = 1 + (commandExtra b c + 1 + 1) := by
  simp [hostScript, Nat.add_comm]

/-- The script of one command, from an idle core: the command is accepted at the first edge, its response is there
after its latency, and is taken at the last edge. -/
theorem observe_hostScript {s : State} {c : Command} {ps : List Pins} (hq : s.seq = .idle)
    (hc : c.arg < 2 ^ s.build.argW) (hin : s.inputs = hostScript s.build c ++ ps) (h : s.noReset) :
    (observe (hostScript s.build c).length s).1.seq = .idle ∧
    acceptedOf (observe (hostScript s.build c).length s).2 = [c] := by
  have hpins : s.pins = ⟨false, true, c.op, c.arg, false⟩ := by rw [State.pins, hin]; rfl
  obtain ⟨haccept, hevent⟩ := step_idle_accept (pins_rst_of_noReset h) hq (by rw [hpins])
  rw [hpins, portCommand_of_lt hc] at haccept hevent
  have hbusy := observe_busy_ends (setSeq_seq s.tick _) (noReset_step h haccept)
  obtain ⟨-, hresp, hquiet⟩ := hbusy
  have hready : (observe (commandExtra s.build c + 1) (s.tick.setSeq (.busy c (commandExtra s.build c)))).1.pins =
      ⟨false, false, 0, 0, true⟩ := by
    rw [State.pins, (observe_frame _ _).2, setSeq_inputs, tick_inputs, hin, hostScript, List.cons_append, List.tail_cons,
      List.append_assoc, List.drop_left' List.length_replicate]
    rfl
  obtain ⟨htake, htaken⟩ := step_resp_take (by rw [hready]) hresp (by rw [hready])
  rw [length_hostScript, Nat.add_comm 1, observe_succ haccept, hevent,
    observe_add (commandExtra s.build c + 1) 1, observe_succ htake, htaken, hquiet]
  exact ⟨rfl, rfl⟩

/-- The script of a program accepts its commands and ends idle. -/
theorem observe_programScript {s : State} {cs : List Command} (hq : s.seq = .idle) (hfits : programFits s.build cs)
    (hin : s.inputs = programScript s.build cs) :
    (observe s.inputs.length s).1.seq = .idle ∧ acceptedOf (observe s.inputs.length s).2 = cs := by
  have h : s.noReset := fun p hp => programScript_rst (hin ▸ hp)
  induction cs generalizing s with
  | nil => rw [hin]; exact ⟨hq, rfl⟩
  | cons c cs ih =>
    obtain ⟨hidle, haccepted⟩ := observe_hostScript hq (hfits c List.mem_cons_self) hin h
    obtain ⟨hbuild, hinputs⟩ := observe_frame (hostScript s.build c).length s
    have hrest : (observe (hostScript s.build c).length s).1.inputs = programScript s.build cs := by
      rw [hinputs, hin, programScript, List.drop_left]
    obtain ⟨hend, hcs⟩ := ih hidle (by rw [hbuild]; exact fun c hc => hfits c (List.mem_cons_of_mem _ hc))
      (by rw [hrest, hbuild]) (noReset_observe h _)
    have hlength : s.inputs.length = (hostScript s.build c).length +
        (observe (hostScript s.build c).length s).1.inputs.length := by
      rw [hrest, hin, programScript, List.length_append]
    rw [hlength, observe_add, acceptedOf_append, haccepted, hcs]
    exact ⟨hend, rfl⟩

/-- The host interface's run is the run observed here, no step stopping it. -/
theorem core_run_eq_observe (n : Nat) (s : State) : Host.Core.run core n s = .next (observe n s).1 := by
  induction n generalizing s with
  | zero => rfl
  | succ n ih =>
    obtain ⟨t, ht⟩ := step_total s
    have hcore : core.step s = .next t := ht
    rw [observe_succ ht, ← ih t]
    simp only [Host.Core.run, hcore]

/-- Settles O56: the script accepts the program, and the refinement gives its responses and registers. -/
theorem programRunEnds : Obligations.ProgramRunEnds := by
  intro s cs hq hfits hin
  obtain ⟨hend, haccepted⟩ := observe_programScript hq hfits hin
  obtain ⟨hcore, htaken⟩ := cycleLevelRefinesTransactionLevel s s.inputs.length hq
    (fun p hp => programScript_rst (hin ▸ hp)) hend
  rw [haccepted] at hcore htaken
  exact ⟨hend, haccepted, htaken, hcore, core_run_eq_observe _ s⟩

end Sys2Proof.Machine
end

section
/-! The commands as products by powers of x (43_generator.md R76 to R80), and the laws of the generator that follow
(R83, R84, 70_reset_and_hazards.md R107, R108). -/

namespace Sys2Proof.Machine

open Polynomial

/-! ### The shifted form of a logical state (R17) -/

theorem shifted_eq_append (s : Elem) : shifted s = s ++ (0#1) := by
  apply BitVec.eq_of_getLsbD_eq
  intro i hi
  rw [shifted, BitVec.getLsbD_shiftLeft, BitVec.getLsbD_setWidth, BitVec.getLsbD_append]
  by_cases h : i < 1
  · simp [h]
  · simp [h, hi, show i - 1 < 256 by omega]

theorem shifted_ne_zero {s : Elem} (h : s ≠ 0) : shifted s ≠ 0 :=
  fun h0 => h (shifted_injective (h0.trans (by decide : (0 : Reg256) = shifted 0)))

/-- The top 32 bits of a register are bits 254 to 223 of its logical state (R84). -/
theorem extractLsb_shifted (x : Elem) : (shifted x).extractLsb' 224 32 = x.extractLsb' 223 32 := by
  apply BitVec.eq_of_getLsbD_eq
  intro i hi
  rw [BitVec.getLsbD_extractLsb', BitVec.getLsbD_extractLsb', shifted, BitVec.getLsbD_shiftLeft,
    BitVec.getLsbD_setWidth]
  simp [show 224 + i < 256 by omega, show 224 + i - 1 = 223 + i by omega, show 223 + i < 256 by omega]

/-! ### SEED (R76) -/

theorem seedState_zero {b : Build} (h : b.sepOffset = 0) : seedState b 0 = 1 := by
  rw [seedState, h, jump_zero]
  exact jump_zero 1 32 0

/-- Settles O27: both registers hold the seed's power of x in shifted form. -/
theorem seedLoadsBothRegisters : Obligations.SeedLoadsBothRegisters := by
  intro s v hv
  refine ⟨shifted (seedState s.build v), exec_seed v s, toPoly_shifted_seedState hv, pack_unpack _,
    fun k => unpack_get _ k.val k.isLt, shifted_bit_zero _, shifted_ne_zero (seedState_ne_zero s.build v), ?_⟩
  rintro hoffset rfl
  rw [seedState_zero hoffset]
  decide

/-! ### NEXT_BS (R78) -/

theorem nextBs_bit_zero (S : Reg256) : (nextBs S).1.getLsbD 0 = false := by
  rw [nextBs_fst, Function.iterate_succ_apply' xss 31]
  exact xss_bit_zero _

/-- Where none of the bits that leave is set, nothing folds back. -/
theorem nextBs_of_top_zero {S : Reg256} (h : S.extractLsb' 224 32 = 0) : (nextBs S).1 = S <<< 32 := by
  apply toPoly_injective
  rw [toPoly_nextBs, shift32_split, h, toPoly_zero, zero_mul, add_zero, reg_mod]

theorem respond_after_output (s : State) (B : Reg256) (o : Out32) :
    ((s.setBreg B).setOut o).respond statusOk o = { s with breg := B, out := o, seq := .resp ⟨0b00, o⟩ } := rfl

/-- Settles O29: the output is the top of BREG, and 32 bit-serial steps multiply by x^32. -/
theorem nextBsReturnsTheTopOfBreg : Obligations.NextBsReturnsTheTopOfBreg := by
  intro s arg
  refine ⟨(nextBs s.breg).1, ?_, toPoly_nextBs s.breg, fun h0 => (logical_of_mul 32 h0 (toPoly_nextBs s.breg)).2,
    nextBs_bit_zero s.breg, nextBs_of_top_zero⟩
  rw [exec_nextBs, nextBs_snd, respond_after_output]

/-! ### DISCARD (R80) -/

theorem toPoly_logical_discarded_of_lt {b : Build} {z : Nat} (hz : z < 2 ^ b.argW) (S : Reg256) :
    toPoly (logical (discarded b S z)) = (toPoly (logical S) * X ^ (32 * z)) %ₘ polyP := by
  rw [toPoly_logical_discarded, Nat.mod_eq_of_lt hz]

theorem discarded_zero (b : Build) {S : Reg256} (h : S.getLsbD 0 = false) : discarded b S 0 = S := by
  rw [discarded, jump_zero, shifted_logical h]

/-- Settles O31: the jump of the logical state, put back in shifted form. -/
theorem discardJumpsBreg : Obligations.DiscardJumpsBreg := by
  intro s z hz
  refine ⟨discarded s.build s.breg z, exec_discard z s, toPoly_logical_discarded_of_lt hz s.breg, ?_, ?_⟩
  · rw [← shifted_eq_append, shifted_logical (discarded_bit_zero _ _ _)]
  · rintro rfl h0
    exact discarded_zero s.build h0

/-! ### The stream of outputs of a register (R83, R107, R108) -/

/-- The responses of n NEXT commands on a register. -/
def stream : Nat → Reg256 → List Response
  | 0, _ => []
  | n + 1, S => ⟨statusOk, S.extractLsb' 224 32⟩ :: stream n (nextBs S).1

/-- NEXT_WV advances the packed word register as NEXT_BS advances BREG. -/
theorem pack_advanceWords_eq_nextBs (w : WordFile) : pack (advanceWords w) = (nextBs (pack w)).1 :=
  toPoly_injective ((toPoly_pack_advanceWords w).trans (toPoly_nextBs (pack w)).symm)

/-- The responses of the commands with opcode `op`, in order. -/
def responsesOf (op : BitVec 4) (cs : List Command) (rs : List Response) : List Response :=
  ((cs.zip rs).filter (fun cr => cr.1.op == op)).map (fun cr => cr.2)

theorem responsesOf_cons (op : BitVec 4) (c : Command) (cs : List Command) (r : Response) (rs : List Response) :
    responsesOf op (c :: cs) (r :: rs) = if c.op = op then r :: responsesOf op cs rs else responsesOf op cs rs := by
  by_cases h : c.op = op <;> simp [responsesOf, h]

/-- In a sequence of NEXT commands each mode reads the stream of its own register. -/
theorem responsesOf_transactAll (b : Build) (k : CoreState) (cs : List Command)
    (h : ∀ c ∈ cs, c.op = 0x3 ∨ c.op = 0x4) :
    responsesOf 0x3 cs (transactAll b k cs).2 = stream (cs.countP (fun c => c.op == 0x3)) k.breg ∧
    responsesOf 0x4 cs (transactAll b k cs).2 = stream (cs.countP (fun c => c.op == 0x4)) (pack k.wreg) := by
  induction cs generalizing k with
  | nil => exact ⟨rfl, rfl⟩
  | cons c cs ih =>
    obtain ⟨B, W, out⟩ := k
    obtain ⟨op, arg⟩ := c
    obtain ⟨ih3, ih4⟩ := ih (transact b ⟨B, W, out⟩ ⟨op, arg⟩).1 (fun c hc => h c (List.mem_cons_of_mem _ hc))
    rw [transactAll_cons, responsesOf_cons, responsesOf_cons, ih3, ih4]
    obtain rfl | rfl : op = 0x3 ∨ op = 0x4 := h _ List.mem_cons_self
    · rw [List.countP_cons_of_pos rfl, List.countP_cons_of_neg (by simp), stream, transact_nextBs, nextBs_snd]
      exact ⟨if_pos rfl, if_neg (by simp)⟩
    · rw [List.countP_cons_of_neg (by simp), List.countP_cons_of_pos rfl, stream, transact_nextWv, topWords_eq,
        pack_advanceWords_eq_nextBs]
      exact ⟨if_neg (by simp), if_pos rfl⟩

theorem responsesOf_replicate (b : Build) (k : CoreState) (n : Nat) (op : BitVec 4) :
    responsesOf op (List.replicate n ⟨op, 0⟩) (transactAll b k (List.replicate n ⟨op, 0⟩)).2 =
      (transactAll b k (List.replicate n ⟨op, 0⟩)).2 := by
  induction n generalizing k with
  | zero => rfl
  | succ n ih => rw [List.replicate_succ, transactAll_cons, responsesOf_cons, if_pos rfl, ih]

theorem transactAll_nextBs (b : Build) (k : CoreState) (n : Nat) :
    (transactAll b k (List.replicate n ⟨0x3, 0⟩)).2 = stream n k.breg := by
  rw [← responsesOf_replicate,
    (responsesOf_transactAll b k _ fun c hc => .inl (congrArg Command.op (List.eq_of_mem_replicate hc))).1]
  simp [List.countP_replicate]

theorem transactAll_nextWv (b : Build) (k : CoreState) (n : Nat) :
    (transactAll b k (List.replicate n ⟨0x4, 0⟩)).2 = stream n (pack k.wreg) := by
  rw [← responsesOf_replicate,
    (responsesOf_transactAll b k _ fun c hc => .inr (congrArg Command.op (List.eq_of_mem_replicate hc))).2]
  simp [List.countP_replicate]

/-- Settles O38: one command of each mode moves its register alike, and both streams are the one register's. -/
theorem theTwoModesAgree : Obligations.TheTwoModesAgree := by
  refine ⟨fun s a a' hagree => ⟨_, _, exec_nextBs a s, exec_nextWv a' s, ?_⟩, fun b k n hagree => ?_⟩
  · have hout : (nextBs s.breg).2 = topWords s.wreg := by rw [nextBs_snd, topWords_eq, hagree]
    have hreg : (nextBs s.breg).1 = pack (advanceWords s.wreg) := by rw [pack_advanceWords_eq_nextBs, hagree]
    rw [hout, hreg]
    exact ⟨rfl, rfl, rfl⟩
  · rw [transactAll_nextBs, transactAll_nextWv, hagree]

/-- Settles O41: the stream of the register an opcode reads, at as many outputs as it has commands. -/
theorem mixedModesReadTwoStreams : Obligations.MixedModesReadTwoStreams := by
  intro b k cs hagree hops op hop
  obtain ⟨h3, h4⟩ := responsesOf_transactAll b k cs hops
  rw [transactAll_nextBs]
  fin_cases hop
  · exact h3
  · exact h4.trans (by rw [hagree])

/-- Settles O42: DISCARD does not write WREG, whose stream NEXT_WV reads. -/
theorem discardDoesNotReachTheWordStream : Obligations.DiscardDoesNotReachTheWordStream := by
  intro b k z n
  rw [transactAll_nextWv, transactAll_nextWv, transact_discard]

/-! ### Blocks of 32 steps (R84) -/

/-- `T` is `S` after n blocks of 32 steps: in shifted form, its logical state multiplied by x^(32·n) modulo P. -/
def Advanced (n : Nat) (S T : Reg256) : Prop :=
  T.getLsbD 0 = false ∧ toPoly (logical T) = (X ^ (32 * n) * toPoly (logical S)) %ₘ polyP

theorem Advanced.refl {S : Reg256} (h : S.getLsbD 0 = false) : Advanced 0 S S :=
  ⟨h, by rw [mul_zero, pow_zero, one_mul, elem_mod]⟩

theorem Advanced.trans {m n : Nat} {S T U : Reg256} (h : Advanced m S T) (h' : Advanced n T U) :
    Advanced (m + n) S U :=
  ⟨h'.1, by rw [h'.2, h.2, mod_mul_right, ← mul_assoc, ← pow_add, ← mul_add, Nat.add_comm]⟩

theorem Advanced.unique {n : Nat} {S T U : Reg256} (h : Advanced n S T) (h' : Advanced n S U) : T = U := by
  rw [← shifted_logical h.1, ← shifted_logical h'.1, toPoly_injective (h.2.trans h'.2.symm)]

theorem advanced_nextBs {S : Reg256} (h : S.getLsbD 0 = false) : Advanced 1 S (nextBs S).1 :=
  logical_of_mul 32 h (toPoly_nextBs S)

theorem advanced_advanceWords {w : WordFile} (h : (pack w).getLsbD 0 = false) :
    Advanced 1 (pack w) (pack (advanceWords w)) :=
  logical_of_mul 32 h (toPoly_pack_advanceWords w)

theorem advanced_discarded {b : Build} {z : Nat} (hz : z < 2 ^ b.argW) (S : Reg256) :
    Advanced z S (discarded b S z) :=
  ⟨discarded_bit_zero b S z, by rw [toPoly_logical_discarded_of_lt hz, mul_comm]⟩

/-- How many blocks of steps a command that does not seed moves BREG by. -/
def bregBlocks (c : Command) : Nat := if c.op = 0x3 then 1 else if c.op = 0x5 then c.arg else 0

/-- How many blocks of steps a command that does not seed moves WREG by. -/
def wregBlocks (c : Command) : Nat := if c.op = 0x4 then 1 else 0

theorem sum_bregBlocks (cs : List Command) : (cs.map bregBlocks).sum =
    cs.countP (fun c => c.op == 0x3) + ((cs.filter (fun c => c.op == 0x5)).map Command.arg).sum := by
  induction cs with
  | nil => rfl
  | cons c cs ih =>
    rw [List.map_cons, List.sum_cons, ih, bregBlocks, List.countP_cons, List.filter_cons]
    by_cases h3 : c.op = 3#4
    · simp [h3]
      omega
    · by_cases h5 : c.op = 5#4
      · simp [h5]
        omega
      · simp [h3, h5]

theorem sum_wregBlocks (cs : List Command) : (cs.map wregBlocks).sum = cs.countP (fun c => c.op == 0x4) := by
  induction cs with
  | nil => rfl
  | cons c cs ih =>
    rw [List.map_cons, List.sum_cons, ih, wregBlocks, List.countP_cons]
    by_cases h4 : c.op = 4#4 <;> simp [h4, Nat.add_comm]

/-- A command with op[3] set leaves the registers and moves neither by a block. -/
theorem transact_high (b : Build) (k : CoreState) (low : BitVec 3) (arg : Nat) :
    (transact b k ⟨1#1 ++ low, arg⟩).1 = k ∧ bregBlocks ⟨1#1 ++ low, arg⟩ = 0 ∧ wregBlocks ⟨1#1 ++ low, arg⟩ = 0 := by
  have hne : ∀ low : BitVec 3, 1#1 ++ low ≠ (0x3 : BitVec 4) ∧ 1#1 ++ low ≠ (0x4 : BitVec 4) ∧
      1#1 ++ low ≠ (0x5 : BitVec 4) := by decide
  obtain ⟨h3, h4, h5⟩ := hne low
  refine ⟨?_, by rw [bregBlocks, if_neg h3, if_neg h5], by rw [wregBlocks, if_neg h4]⟩
  rw [transact, State.outcomeOf, decodeCommand_high]
  rfl

/-- Each command that does not seed moves each register by its number of blocks. -/
theorem advanced_transact {b : Build} {k : CoreState} {c : Command} (hc : c.arg < 2 ^ b.argW)
    (hseed : c.op ≠ 0x1 ∧ c.op ≠ 0x2) (hb : k.breg.getLsbD 0 = false) (hw : (pack k.wreg).getLsbD 0 = false) :
    Advanced (bregBlocks c) k.breg (transact b k c).1.breg ∧
    Advanced (wregBlocks c) (pack k.wreg) (pack (transact b k c).1.wreg) := by
  obtain ⟨B, W, out⟩ := k
  obtain ⟨op, arg⟩ := c
  obtain hop | ⟨low, rfl⟩ := op_cases op
  · fin_cases hop
    · exact ⟨.refl hb, .refl hw⟩
    · exact absurd rfl hseed.1
    · exact absurd rfl hseed.2
    · exact ⟨advanced_nextBs hb, .refl hw⟩
    · exact ⟨.refl hb, advanced_advanceWords hw⟩
    · exact ⟨advanced_discarded hc B, .refl hw⟩
    · exact ⟨.refl hb, .refl hw⟩
    · exact ⟨.refl hb, .refl hw⟩
  · obtain ⟨hk, hbblocks, hwblocks⟩ := transact_high b ⟨B, W, out⟩ low arg
    rw [hk, hbblocks, hwblocks]
    exact ⟨.refl hb, .refl hw⟩

theorem advanced_transactAll {b : Build} {k : CoreState} {cs : List Command} (hfits : programFits b cs)
    (hseed : ∀ c ∈ cs, c.op ≠ 0x1 ∧ c.op ≠ 0x2) (hb : k.breg.getLsbD 0 = false)
    (hw : (pack k.wreg).getLsbD 0 = false) :
    Advanced (cs.map bregBlocks).sum k.breg (transactAll b k cs).1.breg ∧
    Advanced (cs.map wregBlocks).sum (pack k.wreg) (pack (transactAll b k cs).1.wreg) := by
  induction cs generalizing k with
  | nil => exact ⟨.refl hb, .refl hw⟩
  | cons c cs ih =>
    obtain ⟨hbc, hwc⟩ := advanced_transact (hfits c List.mem_cons_self) (hseed c List.mem_cons_self) hb hw
    obtain ⟨hbcs, hwcs⟩ := ih (fun c hc => hfits c (List.mem_cons_of_mem _ hc))
      (fun c hc => hseed c (List.mem_cons_of_mem _ hc)) hbc.1 hwc.1
    rw [List.map_cons, List.sum_cons, List.map_cons, List.sum_cons, transactAll_cons]
    exact ⟨hbc.trans hbcs, hwc.trans hwcs⟩

theorem advanced_replicate_nextBs (b : Build) {k : CoreState} (n : Nat) (h : k.breg.getLsbD 0 = false) :
    Advanced n k.breg (transactAll b k (List.replicate n ⟨0x3, 0⟩)).1.breg := by
  induction n generalizing k with
  | zero => exact .refl h
  | succ n ih =>
    rw [List.replicate_succ, transactAll_cons, transact_nextBs, Nat.add_comm]
    exact (advanced_nextBs h).trans (ih (nextBs_bit_zero k.breg))

/-- Settles O39: both are z blocks of steps, which determine the register. -/
theorem discardEqualsStepping : Obligations.DiscardEqualsStepping := by
  intro b k z hz h
  rw [transact_discard]
  exact (advanced_discarded hz k.breg).unique (advanced_replicate_nextBs b z h)

/-- n blocks of steps from the exponent e lead to the exponent e + 32·n. -/
theorem toPoly_logical_of_advanced {x : Elem} {e n : Nat} {T : Reg256} (hx : toPoly x = powX e)
    (h : Advanced n (shifted x) T) : toPoly (logical T) = powX (e + 32 * n) := by
  rw [h.2, logical_shifted, hx, powX, mod_mul_right, ← pow_add, powX, Nat.add_comm]

/-- Settles O40: the blocks of all commands add up, from the seed's exponent on. -/
theorem exponentView : Obligations.ExponentView := by
  refine ⟨fun b k v cs hv hfits hseed => ?_, fun b k x => ⟨fun hk => ?_, fun hk => ?_⟩⟩
  · have hx := toPoly_seedState_of_lt hv
    have hw := pack_unpack (shifted (seedState b v))
    rw [transactAll_cons, transact_seed, ← sum_bregBlocks, ← sum_wregBlocks]
    obtain ⟨hbreg, hwreg⟩ := advanced_transactAll (k := ⟨_, unpack (shifted (seedState b v)), k.out⟩) hfits hseed
      (shifted_bit_zero (seedState b v)) (by rw [hw]; exact shifted_bit_zero _)
    rw [hw] at hwreg
    exact ⟨toPoly_logical_of_advanced hx hbreg, toPoly_logical_of_advanced hx hwreg⟩
  · rw [transact_nextBs, nextBs_snd, hk, extractLsb_shifted]
  · rw [transact_nextWv, topWords_eq, hk, extractLsb_shifted]

end Sys2Proof.Machine
end

section
/-! The textual form (30_encoding.md R55, R56): names and aliases, operands, decimal and hexadecimal digits. -/

namespace Sys2Proof.Machine

/-! ### Names and operands -/

theorem parseOperand_of_lt {argW v : Nat} {w : List Char} (hw : parseNumber w = some v) (hv : v < 2 ^ argW) :
    parseOperand argW w = .ok v := by
  simp [parseOperand, hw, hv]

theorem parseOperand_of_ge {argW v : Nat} {w : List Char} (hw : parseNumber w = some v) (hv : 2 ^ argW ≤ v) :
    parseOperand argW w = .error .operandTooWide := by
  simp [parseOperand, hw, hv.not_gt]

/-- A line that does not begin with the directive is assembled by its name. -/
theorem assembleWords_named {name : List Char} (h : (name == ['.', 'c', 'm', 'd']) = false) (argW : Nat)
    (ws : List (List Char)) : assembleWords argW (name :: ws) = (assembleNamed argW name ws).map some := by
  simp [assembleWords, h]

/-- Two names of one opcode assemble alike. -/
theorem assembleNamed_congr {name name' : List Char} (h : mnemonicOp name = mnemonicOp name') (argW : Nat)
    (ws : List (List Char)) : assembleNamed argW name ws = assembleNamed argW name' ws := by
  rw [assembleNamed, h, assembleNamed]

section Named

variable {argW v : Nat} {name w : List Char} {op : BitVec 4} {ws : List (List Char)}

/-- The two facts about a name that decide a line: it is no directive, and its opcode. -/
def Names (name : List Char) (op : BitVec 4) : Prop :=
  (name == ['.', 'c', 'm', 'd']) = false ∧ mnemonicOp name = some op

theorem assembleWords_operand (h : Names name op) (ht : takesOperand op = true) (hw : parseNumber w = some v)
    (hv : v < 2 ^ argW) : assembleWords argW [name, w] = .ok (some ⟨op, v⟩) := by
  rw [assembleWords_named h.1]
  simp [assembleNamed, h.2, ht, parseOperand_of_lt hw hv, Except.map]

theorem assembleWords_too_wide (h : Names name op) (ht : takesOperand op = true) (hw : parseNumber w = some v)
    (hv : 2 ^ argW ≤ v) : assembleWords argW [name, w] = .error .operandTooWide := by
  rw [assembleWords_named h.1]
  simp [assembleNamed, h.2, ht, parseOperand_of_ge hw hv, Except.map]

theorem assembleWords_bare (h : Names name op) (ht : takesOperand op = false) :
    assembleWords argW [name] = .ok (some ⟨op, 0⟩) := by
  rw [assembleWords_named h.1]
  simp [assembleNamed, h.2, ht, Except.map]

theorem assembleWords_not_one (h : Names name op) (ht : takesOperand op = true) (hws : ws.length ≠ 1) :
    assembleWords argW (name :: ws) = .error .wrongOperands := by
  rw [assembleWords_named h.1]
  match ws with
  | [] => simp [assembleNamed, h.2, ht, Except.map]
  | [w] => exact absurd rfl hws
  | w :: w' :: ws => simp [assembleNamed, h.2, ht, Except.map]

theorem assembleWords_not_none (h : Names name op) (ht : takesOperand op = false) (hws : ws ≠ []) :
    assembleWords argW (name :: ws) = .error .wrongOperands := by
  rw [assembleWords_named h.1]
  match ws with
  | [] => exact absurd rfl hws
  | w :: ws => simp [assembleNamed, h.2, ht, Except.map]

end Named

/-! ### Digits -/

theorem digitsValue_append (base : Nat) (digit : Char → Option Nat) (acc : Nat) (cs ds : List Char) :
    digitsValue base digit acc (cs ++ ds) =
      (digitsValue base digit acc cs).bind (digitsValue base digit · ds) := by
  induction cs generalizing acc with
  | nil => rfl
  | cons c cs ih =>
    rw [List.cons_append, digitsValue, digitsValue]
    cases digit c with
    | none => rfl
    | some d => exact ih _

/-- A decimal digit as a character. -/
def decChar (d : Fin 10) : Char := Char.ofNat ('0'.toNat + d.val)

theorem decDigit_decChar : ∀ d : Fin 10, decDigit (decChar d) = some d.val := by decide

theorem decChar_ne_x : ∀ d : Fin 10, decChar d ≠ 'x' := by decide

theorem digitsValue_decChars (acc : Nat) (ds : List (Fin 10)) :
    digitsValue 10 decDigit acc (ds.map decChar) = some (ds.foldl (fun n d => n * 10 + d.val) acc) := by
  induction ds generalizing acc with
  | nil => rfl
  | cons d ds ih => rw [List.map_cons, digitsValue, decDigit_decChar, List.foldl_cons, ← ih]

/-- A word whose second character is no x is read in decimal. -/
theorem parseNumber_decimal {c : Char} {cs : List Char} (h : cs.head? ≠ some 'x') :
    parseNumber (c :: cs) = digitsValue 10 decDigit 0 (c :: cs) := by
  unfold parseNumber
  split <;> simp_all

theorem parseNumber_decChars {ds : List (Fin 10)} (h : ds ≠ []) :
    parseNumber (ds.map decChar) = some (ds.foldl (fun n d => n * 10 + d.val) 0) := by
  match ds with
  | [] => exact absurd rfl h
  | d :: ds =>
    have hhead : (ds.map decChar).head? ≠ some 'x' := by
      cases ds with
      | nil => simp
      | cons e ds => simpa using decChar_ne_x e
    rw [List.map_cons, parseNumber_decimal hhead, ← List.map_cons, digitsValue_decChars]

theorem hexDigit_hexChar {d : Nat} (h : d < 16) : hexDigit (hexChar d) = some d := by
  have hall : ∀ d : Fin 16, hexDigit (hexChar d.val) = some d.val := by decide
  exact hall ⟨d, h⟩

@[simp] theorem length_hexDigits (n v : Nat) : (hexDigits n v).length = n := by
  induction n generalizing v with
  | zero => rfl
  | succ n ih => rw [hexDigits, List.length_append, ih]; rfl

/-- The n low hexadecimal digits of v read back as v mod 16^n. -/
theorem digitsValue_hexDigits (n v acc : Nat) :
    digitsValue 16 hexDigit acc (hexDigits n v) = some (acc * 16 ^ n + v % 16 ^ n) := by
  induction n generalizing v acc with
  | zero => simp [hexDigits, digitsValue, Nat.mod_one]
  | succ n ih =>
    rw [hexDigits, digitsValue_append, ih, Option.bind_some]
    simp only [digitsValue, hexDigit_hexChar (Nat.mod_lt v (by decide : 0 < 16)), pow_succ', Nat.mod_mul]
    congr 1
    ring

/-- n + 1 hexadecimal digits after 0x read back as the number they were written from. -/
theorem parseNumber_hexDigits {n v : Nat} (hv : v < 16 ^ (n + 1)) :
    parseNumber ('0' :: 'x' :: hexDigits (n + 1) v) = some v := by
  have hvalue := digitsValue_hexDigits (n + 1) v 0
  rw [Nat.mod_eq_of_lt hv, zero_mul, zero_add] at hvalue
  rw [← hvalue]
  match hds : hexDigits (n + 1) v with
  | [] => exact absurd (length_hexDigits (n + 1) v) (by simp [hds])
  | d :: ds => rfl

/-- Settles O57: each name's opcode is evaluated; what follows depends on the opcode and the operands only. -/
theorem aliasesAssembleToTheirCommands : Obligations.AliasesAssembleToTheirCommands := by
  refine ⟨fun argW v w hw hv => ?_, fun argW => ?_, fun argW v w hw hv => ?_, fun argW ws => ⟨fun hws => ?_, fun hws => ?_⟩,
    fun argW ws => ?_, fun ds hds => parseNumber_decChars hds⟩
  · exact ⟨assembleWords_operand ⟨rfl, rfl⟩ rfl hw hv, assembleWords_operand ⟨rfl, rfl⟩ rfl hw hv,
      assembleWords_operand ⟨rfl, rfl⟩ rfl hw hv, assembleWords_operand ⟨rfl, rfl⟩ rfl hw hv,
      assembleWords_operand ⟨rfl, rfl⟩ rfl hw hv⟩
  · exact ⟨assembleWords_bare ⟨rfl, rfl⟩ rfl, assembleWords_bare ⟨rfl, rfl⟩ rfl, assembleWords_bare ⟨rfl, rfl⟩ rfl,
      assembleWords_bare ⟨rfl, rfl⟩ rfl, assembleWords_bare ⟨rfl, rfl⟩ rfl, assembleWords_bare ⟨rfl, rfl⟩ rfl,
      assembleWords_bare ⟨rfl, rfl⟩ rfl, assembleWords_bare ⟨rfl, rfl⟩ rfl, assembleWords_bare ⟨rfl, rfl⟩ rfl⟩
  · exact ⟨assembleWords_too_wide ⟨rfl, rfl⟩ rfl hw hv, assembleWords_too_wide ⟨rfl, rfl⟩ rfl hw hv⟩
  · exact ⟨assembleWords_not_one ⟨rfl, rfl⟩ rfl hws, assembleWords_not_one ⟨rfl, rfl⟩ rfl hws⟩
  · exact ⟨assembleWords_not_none ⟨rfl, rfl⟩ rfl hws, assembleWords_not_none ⟨rfl, rfl⟩ rfl hws,
      assembleWords_not_none ⟨rfl, rfl⟩ rfl hws, assembleWords_not_none ⟨rfl, rfl⟩ rfl hws,
      assembleWords_not_none ⟨rfl, rfl⟩ rfl hws⟩
  · exact ⟨assembleNamed_congr rfl argW ws, assembleNamed_congr rfl argW ws, assembleNamed_congr rfl argW ws,
      assembleNamed_congr rfl argW ws, assembleNamed_congr rfl argW ws, assembleNamed_congr rfl argW ws,
      assembleNamed_congr rfl argW ws⟩

/-- The listing's digits suffice for the word. -/
theorem word_lt_pow_listing {argW : Nat} {c : Command} (h : c.arg < 2 ^ argW) : c.word < 16 ^ ((argW + 7) / 4) := by
  refine ((word_lt_iff argW c).2 h).trans_le ?_
  rw [show (16 : Nat) = 2 ^ 4 by decide, ← pow_mul]
  exact Nat.pow_le_pow_right (by decide) (by omega)

theorem assembleWords_directive {argW op v : Nat} {opWord argWord : List Char} (hop : parseNumber opWord = some op)
    (hop' : op < 16) (harg : parseNumber argWord = some v) (hv : v < 2 ^ argW) :
    assembleWords argW [['.', 'c', 'm', 'd'], opWord, [','], argWord] = .ok (some ⟨BitVec.ofNat 4 op, v⟩) := by
  simp [assembleWords, assembleCmd, hop, hop', parseOperand_of_lt harg hv, Except.map]

/-- Settles O58: hexadecimal digits read back, in a listing and as the operands of the directive. -/
theorem listingShowsTheCommandWord : Obligations.ListingShowsTheCommandWord := by
  refine ⟨fun argW c hc => ⟨hexDigits ((argW + 7) / 4) c.word, rfl, length_hexDigits _ _, ?_⟩,
    fun argW n v hv hv' op => ?_⟩
  · have hword := word_lt_pow_listing hc
    obtain ⟨n, hn⟩ : ∃ n, (argW + 7) / 4 = n + 1 := ⟨(argW + 7) / 4 - 1, by omega⟩
    rw [hn] at hword ⊢
    exact parseNumber_hexDigits hword
  · rw [assembleWords_directive (parseNumber_hexDigits (n := 0) op.isLt) op.isLt (parseNumber_hexDigits hv') hv,
      BitVec.ofNat_toNat, BitVec.setWidth_eq]

end Sys2Proof.Machine
end

section
/-! MULMOD (40_field_arith.md R60) and the laws of the field arithmetic (R62), as the laws of polynomials modulo P. -/

namespace Sys2Proof

open Polynomial Machine

/-! ### MULMOD (R60) -/

theorem mulmod_zero (a : Reg256) : mulmod a 0 = 0 := by rw [mulmod, clmul_zero, reduce_zero]

theorem mulmod_one (a : Reg256) : mulmod a 1 = reduce (a.setWidth 512) := by rw [mulmod, clmul_one]

/-- The product of two powers of x, reduced. -/
theorem mulmod_one_shiftLeft {i j : Nat} (hi : i < 256) (hj : j < 256) :
    mulmod (1 <<< i : Nat) (1 <<< j : Nat) = reduce (1 <<< (i + j) : Nat) := by
  apply toPoly_injective
  rw [toPoly_mulmod, toPoly_reduce, toPoly_one_shiftLeft hi, toPoly_one_shiftLeft hj, toPoly_one_shiftLeft (by omega),
    ← pow_add]

/-- x^256 modulo P is an entry of the power table. -/
theorem deg2_8 : deg2 8 = 0x100000112 := by
  obtain ⟨-, -, -, -, -, -, h8, -⟩ := powerTableContents
  exact h8

theorem reduce_x256 : reduce (1 <<< 256 : Nat) = deg2 8 := by
  apply toPoly_injective
  rw [toPoly_reduce, toPoly_one_shiftLeft (by decide)]
  exact (toPoly_deg2Entry 8).symm

set_option maxRecDepth 20000 in
set_option exponentiation.threshold 512 in
/-- Settles O11: the product modulo P; of the listed products, those of powers of x up to x^256 are known, and the
others are evaluated. -/
theorem mulmodIsTheProductModuloP : Obligations.MulmodIsTheProductModuloP := by
  refine ⟨fun a b => ⟨toPoly_mulmod a b, mulmod_zero a, mulmod_one a⟩, ?_, ?_, deg2_8, ?_, ?_, ?_⟩
  · exact (mulmod_one_shiftLeft (i := 254) (j := 1) (by decide) (by decide)).trans reduce_x255
  · exact (mulmod_one_shiftLeft (i := 128) (j := 128) (by decide) (by decide)).trans (reduce_x256.trans deg2_8)
  · decide
  · decide
  · decide

/-! ### The laws (R62) -/

theorem mulElem_comm (a b : Elem) : mulElem a b = mulElem b a :=
  toPoly_injective (by rw [toPoly_mulElem, toPoly_mulElem, mul_comm])

theorem mulElem_assoc (a b c : Elem) : mulElem (mulElem a b) c = mulElem a (mulElem b c) :=
  toPoly_injective (by
    rw [toPoly_mulElem, toPoly_mulElem, mod_mul_left, toPoly_mulElem, toPoly_mulElem, mod_mul_right, mul_assoc])

theorem mulElem_xor (a b c : Elem) : mulElem a (b ^^^ c) = mulElem a b ^^^ mulElem a c :=
  toPoly_injective (by
    rw [toPoly_mulElem, toPoly_xor, toPoly_xor, toPoly_mulElem, toPoly_mulElem, mul_add, add_modByMonic])

theorem mulElem_one (a : Elem) : mulElem a 1 = a :=
  toPoly_injective (by rw [toPoly_mulElem, toPoly_one_elem, mul_one, elem_mod])

theorem mulElem_zero (a : Elem) : mulElem a 0 = 0 :=
  toPoly_injective (by rw [toPoly_mulElem, toPoly_zero, mul_zero, zero_modByMonic])

/-- Squaring is additive: the two mixed products cancel. -/
theorem mulElem_xor_self (a b : Elem) : mulElem (a ^^^ b) (a ^^^ b) = mulElem a a ^^^ mulElem b b := by
  apply toPoly_injective
  rw [toPoly_mulElem, toPoly_xor, toPoly_xor, toPoly_mulElem, toPoly_mulElem, CharTwo.add_mul_self, add_modByMonic]

/-- The square of a sum of powers of x is the sum of the squares. -/
theorem toPoly_mul_self {w : Nat} (a : BitVec w) : toPoly a * toPoly a =
    ∑ i ∈ Finset.range w, if a.getLsbD i then (X : (ZMod 2)[X]) ^ (2 * i) else 0 := by
  rw [← pow_two, toPoly, CharTwo.sum_sq]
  refine Finset.sum_congr rfl fun i _ => ?_
  rw [ite_pow, ← pow_mul, Nat.mul_comm i 2, zero_pow two_ne_zero]

/-- Settles O12: the laws one by one. -/
theorem fieldLaws : Obligations.FieldLaws := fun a b c =>
  ⟨BitVec.xor_self, mulElem_comm a b, mulElem_assoc a b c, mulElem_xor a b c, mulElem_one a, mulElem_zero a,
    mulElem_xor_self a b, by rw [toPoly_mulElem, toPoly_mul_self]⟩

end Sys2Proof
end

end
